-- ==== Sys2Proof/Word.lean ====
section
/-! DEFINITION. The data widths of the block: bytes and the 16-bit values of payloads (spec 00_scope.md R6). -/

namespace Sys2Proof

/-- A byte: 8 bits, bit 7 the most significant (R6). -/
abbrev Byte := BitVec 8

/-- The 16-bit pattern of a `u16` or an `s16` (R6). -/
abbrev Word16 := BitVec 16

end Sys2Proof
end

