-- ==== Sys2Proof/Config.lean ====
section
/-! DEFINITION. What an implementation fixes and the spec leaves open: the receive-buffer capacity (R5) and the
environment's constants (R91), as plain data; and the two free values of the environment, constants with no body. -/

namespace Sys2Proof

/-- Which way the truncating division of R96 takes a negative product: the source does not say (U17, log 19). -/
inductive Rounding where
  | towardZero
  | towardNegInf
  deriving DecidableEq, Repr

/-- The open parameters. No operation reads them from software or writes them (R16). -/
structure Config where
  /-- `CAP`, capacity of the receive buffer in bytes (R5); a legal block has `CAP ≥ 21` (R131). -/
  cap : Nat
  /-- `DEFAULT_GAIN`, percent (R91). -/
  defaultGain : Byte
  /-- `SERVO_MIN_US`, microseconds (R91). -/
  servoMinUs : Nat
  /-- `SERVO_MAX_US`, microseconds (R91). -/
  servoMaxUs : Nat
  /-- `SERIAL_TIMEOUT`, milliseconds of the clock (R91). -/
  serialTimeout : Nat
  /-- `CONTROL_LOOP_HZ`, hertz (R91). -/
  controlLoopHz : Nat
  /-- Time between Telemetry frames (R91); in milliseconds of the clock, a unit R91 leaves open (DESIGN CHOICE, log 30). -/
  telemetryInterval : Nat
  /-- Time between the device's Heartbeat frames (R91); in milliseconds of the clock, likewise (DESIGN CHOICE, log 30). -/
  heartbeatInterval : Nat
  /-- Direction of the truncating division of R96 (log 19). -/
  rounding : Rounding
  deriving DecidableEq, Repr

/-- Free value (log 18): what the linear map of R96 gives a deflection, where R97 fixes no point of it. Arguments:
`SERVO_MIN_US`, `SERVO_MAX_US`, the deflection. -/
opaque Config.freePulseUs : Nat → Nat → Int → Nat

/-- Free value (log 16): the `u16` loop rate reported for a loop count that does not fit 16 bits (R101 step 7). -/
opaque Config.freeLoopRate : Nat → Word16

end Sys2Proof
end

