-- ==== Sys2Proof/Syntax.lean ====
section
/-! DEFINITION. The instructions: one constructor per row of spec/opcode_table.json (seven frames, R30 and R34; eight
operations, R39), with the records and enumerations their operands use. -/

namespace Sys2Proof

/-- The six assigned commands (R34). Their codes are in Machine/Encoding.lean. -/
inductive Command where
  | setSteering
  | setGain
  | setEnable
  | telemetry
  | fault
  | heartbeat
  deriving DecidableEq, Repr

/-- The fault codes (R36), also the values of the environment's `faultCode` (R92). -/
inductive FaultCode where
  | none
  | serialTimeout
  | servoError
  | adcError
  deriving DecidableEq, Repr

/-- A Frame record (R17): what DECODE and DRAIN answer. The payload is a list of LEN bytes (D10: no lanes). -/
structure Frame where
  command  : Byte
  payload  : List Byte
  checksum : Byte
  deriving DecidableEq, Repr

/-- The instruction set. A FRAME row holds the payload bytes and the CRC byte as they stand on the wire; LEN is the
payload's length (R32). An OP row holds the operands of R39. -/
inductive Instr where
  /-- SetSteering, CMD 0x01 (R80). -/
  | setSteering (payload : List Byte) (crc : Byte)
  /-- SetGain, CMD 0x02 (R81). -/
  | setGain (payload : List Byte) (crc : Byte)
  /-- SetEnable, CMD 0x03 (R82). -/
  | setEnable (payload : List Byte) (crc : Byte)
  /-- Telemetry, CMD 0x10 (R83). -/
  | telemetry (payload : List Byte) (crc : Byte)
  /-- Fault, CMD 0x11 (R84). -/
  | fault (payload : List Byte) (crc : Byte)
  /-- Heartbeat, CMD 0xF0 (R85). -/
  | heartbeat (payload : List Byte) (crc : Byte)
  /-- Raw: any CMD that is not one of the six (R86). -/
  | raw (cmd : Byte) (payload : List Byte) (crc : Byte)
  /-- RESET (R130). -/
  | reset
  /-- CRC8.INIT (R41). -/
  | crcInit
  /-- CRC8.UPDATE(b) (R42). -/
  | crcUpdate (b : Byte)
  /-- CRC8.READ (R43). -/
  | crcRead
  /-- ENCODE(cmd, payload) (R50). -/
  | encode (cmd : Byte) (payload : List Byte)
  /-- DECODE(s) (R55). -/
  | decode (bytes : List Byte)
  /-- PUSH(b) (R65). -/
  | push (bytes : List Byte)
  /-- DRAIN (R67). -/
  | drain
  deriving DecidableEq, Repr

end Sys2Proof
end

