-- ==== Sys2Proof/Machine/Encoding.lean ====
section
/-! DEFINITION. The encoding tables: the constants of R5 and the command codes of R34. They stand here, and not in
Config.lean, because a repair may mend them. -/

namespace Sys2Proof

/-- `SOF0`, first header byte (R5). -/
def sof0 : Byte := 0xAA
/-- `SOF1`, second header byte (R5). -/
def sof1 : Byte := 0x55
/-- `CRC_POLY`: x^8 + x^2 + x + 1, the x^8 term implicit (R5). -/
def crcPoly : Byte := 0x07
/-- `CRC_INIT` (R5). -/
def crcInitial : Byte := 0x00
/-- `MAX_PAYLOAD`, the largest legal LEN (R5). -/
def maxPayload : Nat := 16
/-- `OVERHEAD`: two header bytes, CMD, LEN, CRC (R5). -/
def overhead : Nat := 5
/-- `MAX_FRAME` = `OVERHEAD + MAX_PAYLOAD` (R5); also the least legal capacity (R131). -/
def maxFrame : Nat := overhead + maxPayload

/-- The CMD byte of each assigned command (R34). -/
def Command.code : Command → Byte
  | .setSteering => 0x01
  | .setGain     => 0x02
  | .setEnable   => 0x03
  | .telemetry   => 0x10
  | .fault       => 0x11
  | .heartbeat   => 0xF0

/-- The assigned command a CMD byte selects; none for the 250 unassigned values (R34, R37 (a)). -/
def Command.ofCode (c : Byte) : Option Command :=
  if c = Command.code .setSteering then some .setSteering
  else if c = Command.code .setGain then some .setGain
  else if c = Command.code .setEnable then some .setEnable
  else if c = Command.code .telemetry then some .telemetry
  else if c = Command.code .fault then some .fault
  else if c = Command.code .heartbeat then some .heartbeat
  else none

/-- The LEN byte of a payload (R30): its length as one byte, `0..16` in a legal frame. -/
def lenByte (payload : List Byte) : Byte := BitVec.ofNat 8 payload.length

/-- The bytes the CRC covers, `CMD ‖ LEN ‖ PAYLOAD` (R33). -/
def frameBody (cmd : Byte) (payload : List Byte) : List Byte := cmd :: lenByte payload :: payload

/-- The wire frame with a given CRC byte: `SOF0 ‖ SOF1 ‖ CMD ‖ LEN ‖ PAYLOAD ‖ CRC` (R30). -/
def wireFrame (cmd : Byte) (payload : List Byte) (crc : Byte) : List Byte :=
  sof0 :: sof1 :: (frameBody cmd payload ++ [crc])

/-- Does a byte sequence begin with the header `AA 55` (R55, R69)? -/
def beginsWithHeader : List Byte → Bool
  | b0 :: b1 :: _ => b0 == sof0 && b1 == sof1
  | _ => false

end Sys2Proof
end

