-- ==== Sys2Proof/WellFormed.lean ====
section
/-! DEFINITION. Well-formed instructions. The shape is what the encoding of R30 and the contracts of R51 and R55 admit;
a well-formed frame also carries the CRC of its body (opcode table: `crc = crc8(cmd, len, payload)`). -/

namespace Sys2Proof

/-- Within the format (R30 to R32: `LEN ≤ 16`; R86: Raw holds no assigned code) or the operation's contract (R51, R55). -/
def Instr.shapeOk : Instr → Bool
  | .setSteering p _ => decide (p.length ≤ maxPayload)
  | .setGain p _     => decide (p.length ≤ maxPayload)
  | .setEnable p _   => decide (p.length ≤ maxPayload)
  | .telemetry p _   => decide (p.length ≤ maxPayload)
  | .fault p _       => decide (p.length ≤ maxPayload)
  | .heartbeat p _   => decide (p.length ≤ maxPayload)
  | .raw c p _       => decide (p.length ≤ maxPayload) && (Command.ofCode c).isNone
  | .reset           => true
  | .crcInit         => true
  | .crcUpdate _     => true
  | .crcRead         => true
  | .encode _ p      => decide (p.length ≤ maxPayload)
  | .decode s        => beginsWithHeader s
  | .push _          => true
  | .drain           => true

/-- A frame's CRC byte is the CRC of its body (R30, R33); an operation has none. -/
def Instr.checksumOk : Instr → Bool
  | .setSteering p k => checksumMatches (Command.code .setSteering) p k
  | .setGain p k     => checksumMatches (Command.code .setGain) p k
  | .setEnable p k   => checksumMatches (Command.code .setEnable) p k
  | .telemetry p k   => checksumMatches (Command.code .telemetry) p k
  | .fault p k       => checksumMatches (Command.code .fault) p k
  | .heartbeat p k   => checksumMatches (Command.code .heartbeat) p k
  | .raw c p k       => checksumMatches c p k
  | .reset           => true
  | .crcInit         => true
  | .crcUpdate _     => true
  | .crcRead         => true
  | .encode _ _      => true
  | .decode _        => true
  | .push _          => true
  | .drain           => true

/-- A well-formed instruction. -/
def Instr.wf (i : Instr) : Bool := i.shapeOk && i.checksumOk

end Sys2Proof
end

