-- ==== Sys2Proof/Decode.lean ====
section
/-! DEFINITION. The instruction decoder, total on any bytes and rejecting by name; then the encoder, written from R30 and
R34; then the names of R38; then the decoder on the words of the opcode table. The operations have no binary encoding
(R39), so decoding gives frames only and the encoder gives an operation no bytes. -/

namespace Sys2Proof

/-- Why bytes are no frame: too few of them (R56, R58), no `AA 55` at the front (R55), LEN above 16 (R57). -/
inductive DecodeReject where
  | truncated
  | badHeader
  | badLength
  deriving DecidableEq, Repr

/-- The frame instruction of a CMD byte: the six assigned codes first, then the fallback row Raw (R30, R34). -/
def Instr.ofFrame (cmd : Byte) (payload : List Byte) (crc : Byte) : Instr :=
  match Command.ofCode cmd with
  | some .setSteering => .setSteering payload crc
  | some .setGain     => .setGain payload crc
  | some .setEnable   => .setEnable payload crc
  | some .telemetry   => .telemetry payload crc
  | some .fault       => .fault payload crc
  | some .heartbeat   => .heartbeat payload crc
  | none              => .raw cmd payload crc

/-- The instruction at the front of a byte sequence and the bytes after it (R30, R32). The CRC byte is kept as it
stands; whether it matches is decided when the frame is executed (R59). -/
def decode (bytes : List Byte) : Except DecodeReject (Instr × List Byte) :=
  match bytes with
  | b0 :: b1 :: afterHeader =>
    if b0 = sof0 ∧ b1 = sof1 then
      match afterHeader with
      | cmd :: len :: rest =>
        if len.toNat > maxPayload then .error .badLength
        else
          match rest.drop len.toNat with
          | crc :: tail => .ok (Instr.ofFrame cmd (rest.take len.toNat) crc, tail)
          | [] => .error .truncated
      | _ => .error .truncated
    else .error .badHeader
  | _ => .error .truncated

/-- CMD, payload and CRC byte of a frame; none for an operation. -/
def Instr.frameParts : Instr → Option (Byte × List Byte × Byte)
  | .setSteering p k => some (Command.code .setSteering, p, k)
  | .setGain p k     => some (Command.code .setGain, p, k)
  | .setEnable p k   => some (Command.code .setEnable, p, k)
  | .telemetry p k   => some (Command.code .telemetry, p, k)
  | .fault p k       => some (Command.code .fault, p, k)
  | .heartbeat p k   => some (Command.code .heartbeat, p, k)
  | .raw c p k       => some (c, p, k)
  | .reset           => none
  | .crcInit         => none
  | .crcUpdate _     => none
  | .crcRead         => none
  | .encode _ _      => none
  | .decode _        => none
  | .push _          => none
  | .drain           => none

/-- The wire bytes of a frame instruction (R30); none for an operation (R39). -/
def encode (i : Instr) : Option (List Byte) :=
  i.frameParts.map fun (c, p, k) => wireFrame c p k

/-- `Raw(cmd, payload)` and every other name of R38: the frame `ENCODE(cmd, payload)`, its CRC filled in. -/
def Instr.framed (cmd : Byte) (payload : List Byte) : Instr :=
  Instr.ofFrame cmd payload (crc8 (frameBody cmd payload))

/-- The bytes of an opcode-table word in wire order (R30: the first byte is the word's most significant): the `n` bytes
of the first word, then of the words after it, 32 bits each. -/
def wordBytes : Nat → Nat → List Byte
  | 0, _ => []
  | 1, w => [BitVec.ofNat 8 w]
  | 2, w => [BitVec.ofNat 8 (w / 256), BitVec.ofNat 8 w]
  | 3, w => [BitVec.ofNat 8 (w / 65536), BitVec.ofNat 8 (w / 256), BitVec.ofNat 8 w]
  | n + 4, w =>
    [BitVec.ofNat 8 (w / 16777216), BitVec.ofNat 8 (w / 65536), BitVec.ofNat 8 (w / 256), BitVec.ofNat 8 w]
      ++ wordBytes n (w / 4294967296)

/-- How many bytes the instruction of a table word has: `5 + LEN` (R32), or the longest frame where LEN is illegal. -/
def tableFrameLength : List Byte → Nat
  | _ :: _ :: _ :: len :: _ => if len.toNat ≤ maxPayload then overhead + len.toNat else maxFrame
  | _ => maxFrame

/-- The bytes of a table word followed by zero bytes up to the end of the instruction (log 9). -/
def tableBytes (nbits w : Nat) : List Byte :=
  let bytes := wordBytes (nbits / 8) w
  bytes ++ List.replicate (tableFrameLength bytes - bytes.length) 0

/-- The instruction the decoder reads from an opcode-table word. -/
def decodeTableWord (nbits w : Nat) : Option Instr :=
  match decode (tableBytes nbits w) with
  | .ok (i, _) => some i
  | .error _ => none

end Sys2Proof
end

