-- ==== Sys2Proof/Machine/State.lean ====
section
/-! DEFINITION. The state of the machine, the reasons it stops, and reset. The block's own state is `buf`, `wr` and `crc`
(R10); `env` is the state of its described environment (R19, 45_environment.md); `response` and `requests` are the
model's interface (logs 4 and 5). -/

namespace Sys2Proof.Machine

/-- Why the machine stops. Both are unreachable from a state that meets the invariant of Safety.lean (R28, R74 (e)). -/
inductive Fault where
  /-- Raised by MemRead (used by DRAIN): a byte at or above `WR`, which has no value (R7, R11, U3). Safe. -/
  | staleRead (addr : Nat)
  /-- Raised by MemWrite (used by PUSH and DRAIN): an index at or above `CAP`, which does not exist (R7, R28). Safe. -/
  | outsideBuffer (addr : Nat)
  deriving DecidableEq, Repr

/-- Why the machine gives no step. All are the spec's own refusals. -/
inductive Refusal where
  /-- Raised by `exec` for an instruction without a meaning; no arm does so now. Safe. -/
  | notModelled (mnemonic : String)
  /-- Raised by ENCODE with a payload above 16 bytes (R51, U1): no bytes, no state change. Safe. -/
  | oversizedPayload
  /-- Raised by DECODE of a sequence that does not begin `AA 55` (R55, U2). Safe. -/
  | noHeader
  /-- Raised by `step` of a block with `CAP < 21` (R131, U9). Safe. -/
  | capacityTooSmall
  deriving DecidableEq, Repr

/-- The outcome of a DECODE (R55); the number is the consumed span. -/
inductive DecodeResult where
  | frame (f : Frame) (consumed : Nat)
  | needMoreData
  | badLength
  | invalid (consumed : Nat)
  deriving DecidableEq, Repr

/-- The response of an operation (R39). -/
inductive Response where
  | none
  | byte (b : Byte)
  | bytes (bs : List Byte)
  | decoded (r : DecodeResult)
  | frames (fs : List Frame)
  deriving DecidableEq, Repr

/-- The receive buffer's bytes by index: addresses strictly rising; an index that is not listed has no value (log 3). -/
abbrev Memory := List Host.Cell

/-- DeviceState (R92). -/
structure DeviceState where
  enabled : Bool
  /-- `s16` pattern (R92, R35 (a)). -/
  commandedPosition : Word16
  /-- Percent, at most 100 (R92). -/
  gain : Byte
  faultCode : FaultCode
  /-- Clock value, ms (R92, R94). -/
  lastCommandTimestamp : Nat
  deriving DecidableEq, Repr

/-- The Control Loop's clock, telemetry sample, counter and emission times (R19, R90, R93, R101). -/
structure LoopState where
  /-- The monotonic millisecond clock (R90, log 14). -/
  clock : Nat
  /-- `angleRaw` of the TelemetrySample, `s16` pattern (R93, R101 step 3). -/
  angleRaw : Word16
  /-- `loopRateHz` of the TelemetrySample, `u16` (R93, R101 step 7). -/
  loopRateHz : Word16
  /-- The loop counter (R101 step 7). -/
  loopCounter : Nat
  /-- Time of the last one-second snapshot (R101 step 7). -/
  lastSnapshot : Nat
  /-- Time of the last Telemetry emission (R101 step 5). -/
  lastTelemetry : Nat
  /-- Time of the last Heartbeat emission (R101 step 6). -/
  lastHeartbeat : Nat
  /-- When the current iteration began (R101 step 8). -/
  iterationStart : Nat
  deriving DecidableEq, Repr

/-- What the actuator was last commanded: no drive signal, or a pulse width in microseconds (R90, R101 step 4). -/
inductive Actuator where
  | relaxed
  | driven (us : Nat)
  deriving DecidableEq, Repr

/-- The environment of the block (R19, 45_environment.md). -/
structure Env where
  device : DeviceState
  loop : LoopState
  actuator : Actuator
  /-- Every byte given to `Transport.write` so far, in order (R90, log 13). -/
  tx : List Byte
  deriving DecidableEq, Repr

/-- What one Control Loop iteration takes from outside (R101): the transport bytes, the angle sample, and the time that
passes before each of steps 2 to 8 (missing entries are 0, log 14). -/
structure LoopInputs where
  received : List Byte
  angle : Word16
  delays : List Nat
  deriving DecidableEq, Repr

/-- One action of the environment: a step of the Control Loop (R101), a whole iteration, or time passing (R90). -/
inductive EnvAction where
  /-- Step 1: push the available transport bytes, drain, apply each frame in arrival order. -/
  | receive (bytes : List Byte)
  /-- Step 2: evaluate the timeout. -/
  | checkTimeout
  /-- Step 3: sample the angle sensor. -/
  | sampleAngle (raw : Word16)
  /-- Step 4: drive the actuator if enabled. -/
  | actuate
  /-- Step 5: emit Telemetry if its interval has elapsed. -/
  | emitTelemetry
  /-- Step 6: emit Heartbeat if its interval has elapsed. -/
  | emitHeartbeat
  /-- Step 7: count the loop; once per second take the rate. -/
  | countLoop
  /-- Step 8: idle for the rest of the period. -/
  | pace
  /-- The clock moves on. -/
  | advanceClock (ms : Nat)
  /-- One iteration: the eight steps in order. -/
  | iteration (inputs : LoopInputs)
  deriving DecidableEq, Repr

/-- What can be asked of the machine (log 5): an instruction, or an action of the environment. -/
inductive Request where
  | perform (i : Instr)
  | environment (a : EnvAction)
  deriving DecidableEq, Repr

/-- The whole state. -/
structure State where
  /-- The open parameters; no step changes them (R16). -/
  cfg : Config
  /-- `BUF` (R11). -/
  buf : Memory
  /-- `WR`, the number of valid bytes, `0 ≤ WR ≤ CAP` (R12). -/
  wr : Nat
  /-- `CRC`, the register of the streaming unit (R13). -/
  crc : Byte
  /-- The environment (R19). -/
  env : Env
  /-- The response of the operation just done (R39, log 4). -/
  response : Response
  /-- What is asked of the machine, oldest first (log 5). -/
  requests : List Request
  deriving DecidableEq, Repr

/-- The parameters of `State.reset`: `CAP = 64` (log 1), the environment's constants 0 (log 2). Statements about reset
range over every configuration instead: `State.resetOf`. -/
def sampleConfig : Config where
  cap := 64
  defaultGain := 0
  servoMinUs := 0
  servoMaxUs := 0
  serialTimeout := 0
  controlLoopHz := 1
  telemetryInterval := 0
  heartbeatInterval := 0
  rounding := .towardZero

/-- DeviceState at start-up (R92; D19: position 0, no fault, the clock at start-up; log 10). -/
def DeviceState.startup (c : Config) (now : Nat) : DeviceState where
  enabled := false
  commandedPosition := 0
  gain := c.defaultGain
  faultCode := .none
  lastCommandTimestamp := now

/-- The Control Loop's state at start-up (log 11; the clock's start value, log 14). -/
def LoopState.startup : LoopState where
  clock := 0
  angleRaw := 0
  loopRateHz := 0
  loopCounter := 0
  lastSnapshot := 0
  lastTelemetry := 0
  lastHeartbeat := 0
  iterationStart := 0

/-- The environment at start-up: the actuator is not driven (R132, log 12), nothing sent (log 13). -/
def Env.startup (c : Config) : Env where
  device := .startup c LoopState.startup.clock
  loop := .startup
  actuator := .relaxed
  tx := []

/-- The machine right after reset, for a configuration: `WR = 0`, `CRC = 0x00`, BUF unspecified (R18, R130). -/
def State.resetOf (c : Config) : State where
  cfg := c
  buf := []
  wr := 0
  crc := 0x00
  env := .startup c
  response := .none
  requests := []

/-- The machine right after reset, for the sample configuration (logs 1, 2). -/
def State.reset : State := .resetOf sampleConfig

end Sys2Proof.Machine
end

