-- ==== Sys2Proof/Machine/Ops.lean ====
section
/-! DEFINITION. The named operations over BUF and the registers (R7), the shared discard of the buffer, and the shared
effect of an error event, which is what this block has in the place of exceptions (R110, R115, R116). -/

namespace Sys2Proof.Machine

/-- The outcome of one instruction or step. -/
abbrev Result := Host.Outcome State Fault Refusal

/-- A shared operation either answers a value or stops with a fault. -/
abbrev OrFault (α : Type) := Except Fault α

/-- An operation's end as an outcome. -/
def OrFault.toResult : OrFault State → Result
  | .ok s => .next s
  | .error f => .fault f

/-! Memory: bytes by index. -/

/-- The byte at an index; none where the index has no value (log 3). -/
def Memory.read : Memory → Nat → Option Byte
  | [], _ => none
  | (k, b) :: m, a => if k = a then some b else Memory.read m a

/-- Write one byte, keeping the addresses strictly rising. -/
def Memory.write : Memory → Nat → Byte → Memory
  | [], a, v => [(a, v)]
  | (k, b) :: m, a, v =>
    if k < a then (k, b) :: Memory.write m a v
    else if k = a then (a, v) :: m
    else (a, v) :: (k, b) :: m

/-- Bytes at and above an index lose their value: they have become stale (R11, U3). -/
def Memory.forgetFrom (m : Memory) (n : Nat) : Memory := m.filter fun c => decide (c.1 < n)

/-- The canonical form: addresses strictly rising. No unlisted byte has a value, so no entry can equal it. -/
def Memory.wf : Memory → Bool
  | [] => true
  | [_] => true
  | a :: b :: m => decide (a.1 < b.1) && Memory.wf (b :: m)

/-- The memory that holds a byte sequence at an index upward. -/
def Memory.ofBytesFrom : Nat → List Byte → Memory
  | _, [] => []
  | a, b :: bs => (a, b) :: Memory.ofBytesFrom (a + 1) bs

/-- The memory that holds a byte sequence at index 0 upward. -/
def Memory.ofBytes (bs : List Byte) : Memory := Memory.ofBytesFrom 0 bs

/-- `n` bytes from an index, each of which must have a value. -/
def Memory.readBytes (m : Memory) : Nat → Nat → OrFault (List Byte)
  | _, 0 => .ok []
  | a, n + 1 =>
    match m.read a with
    | none => .error (.staleRead a)
    | some b =>
      match m.readBytes (a + 1) n with
      | .ok bs => .ok (b :: bs)
      | .error f => .error f

/-- Write a byte sequence at an index upward. -/
def Memory.writeBytes : Memory → Nat → List Byte → Memory
  | m, _, [] => m
  | m, a, b :: bs => (m.write a b).writeBytes (a + 1) bs

/-! Registers. -/

/-- `WR <- v`. -/
def State.setWr (s : State) (v : Nat) : State := { s with wr := v }

/-- `CRC <- v`. -/
def State.setCrc (s : State) (v : Byte) : State := { s with crc := v }

/-- BUF takes new contents. -/
def State.setBuf (s : State) (m : Memory) : State := { s with buf := m }

/-- The environment takes a new state. -/
def State.setEnv (s : State) (e : Env) : State := { s with env := e }

/-- The response of the operation being done (R39). -/
def State.respond (s : State) (r : Response) : State := { s with response := r }

/-- What is still asked of the machine. -/
def State.setRequests (s : State) (rs : List Request) : State := { s with requests := rs }

/-- The state whose BUF holds exactly a byte sequence: `BUF[0..WR)` is `bs`. -/
def State.withBytes (s : State) (bs : List Byte) : State := { s with buf := .ofBytes bs, wr := bs.length }

/-! MemRead and MemWrite (R7). -/

/-- `MemRead(addr, n)`: defined only for `addr + n ≤ WR`; no side effect. -/
def State.memRead (s : State) (addr n : Nat) : OrFault (List Byte) :=
  if addr + n ≤ s.wr then s.buf.readBytes addr n else .error (.staleRead (max addr s.wr))

/-- `MemWrite(addr, n, v)`: defined only for `addr + n ≤ CAP`. -/
def State.memWrite (s : State) (addr : Nat) (v : List Byte) : OrFault State :=
  if addr + v.length ≤ s.cfg.cap then .ok (s.setBuf (s.buf.writeBytes addr v))
  else .error (.outsideBuffer (max addr s.cfg.cap))

/-- `WR <- 0`: everything held is discarded. Shared by overflow (R65), by filling inside a PUSH (R66) and by RESET
(R130). -/
def State.discard (s : State) : State := (s.setBuf (s.buf.forgetFrom 0)).setWr 0

/-! Error events (R110). -/

/-- The error events of the block. None is reported, latched or stored (R112). -/
inductive Event where
  | headerMiss
  | needMoreData
  | badLength
  | invalid (span : Nat)
  | overflow
  deriving DecidableEq, Repr

/-- What an event of the scan does to POS, its whole effect (R110, R111): the scan moves on by this much, or stops. -/
def Event.advance : Event → Option Nat
  | .headerMiss => some 1
  | .needMoreData => none
  | .badLength => some 1
  | .invalid span => some span
  | .overflow => none

end Sys2Proof.Machine
end

