-- ==== Sys2Proof/Machine/Operands.lean ====
section
/-! DEFINITION. The operand forms: how payload values are put together and taken apart (R35), and the fault codes'
values (R36). The framer and the parser do none of this; the sender and the consumer do. -/

namespace Sys2Proof.Machine

/-- `le16(b0, b1)`: `zext_16(b0) + 256 * zext_16(b1)`, `b0` the low byte (R7). -/
def le16 (b0 b1 : Byte) : Word16 := b0.setWidth 16 + 256 * b1.setWidth 16

/-- `as_s16(w)`: the pattern read as two's complement (R7). -/
def asS16 (w : Word16) : Int := if w.toNat < 32768 then (w.toNat : Int) else (w.toNat : Int) - 65536

/-- The two bytes of a 16-bit value, low byte first (R35 (a), (b)). -/
def le16Bytes (w : Word16) : List Byte := [w.extractLsb' 0 8, w.extractLsb' 8 8]

/-- An `s16` (or `u16`) at payload offset 0, if the payload has it (R35 (a), R80). -/
def wordOperand : List Byte → Option Word16
  | b0 :: b1 :: _ => some (le16 b0 b1)
  | _ => none

/-- A `u8` at payload offset 0, if the payload has it (R35 (c), R81, R82). -/
def byteOperand : List Byte → Option Byte
  | b :: _ => some b
  | [] => none

/-- SetSteering's payload as the sender builds it (R34, R35 (d)). -/
def steeringPayload (position : Word16) : List Byte := le16Bytes position

/-- Telemetry's payload: the angle at offset 0, the loop rate at offset 2 (R35 (d), R83). -/
def telemetryPayload (angle rate : Word16) : List Byte := le16Bytes angle ++ le16Bytes rate

/-- A fault code's value (R36). -/
def faultByte : FaultCode → Byte
  | .none => 0x00
  | .serialTimeout => 0x01
  | .servoError => 0x02
  | .adcError => 0x03

end Sys2Proof.Machine
end

