-- ==== Sys2Proof/Machine/Parser.lean ====
section
/-! DEFINITION. DECODE (spec 42_parser_decode.md). -/

namespace Sys2Proof.Machine

/-- `DECODE(s)` (R55) of a sequence that begins `AA 55`: the checks in the rule's order, the first that applies decides.
Fewer than 4 bytes (R56); LEN above 16 (R57); fewer than `5 + LEN` (R58); the checksum (R59); the frame (R60). -/
def decodeFrame (s : List Byte) : DecodeResult :=
  match s with
  | _ :: _ :: cmd :: len :: rest =>
    if len.toNat > maxPayload then .badLength
    else if s.length < overhead + len.toNat then .needMoreData
    else
      let payload := rest.take len.toNat
      let checksum := rest.getD len.toNat 0
      if crc8 (cmd :: len :: payload) = checksum then
        .frame { command := cmd, payload := payload, checksum := checksum } (overhead + len.toNat)
      else .invalid (overhead + len.toNat)
  | _ => .needMoreData

/-- DECODE. Without the header the request is outside its contract (R55, U2). No state is read or written (R55). -/
def execDecode (bytes : List Byte) (s : State) : Result :=
  if beginsWithHeader bytes then .next (s.respond (.decoded (decodeFrame bytes))) else .refused .noHeader

end Sys2Proof.Machine
end

