-- ==== Sys2Proof/Machine/Flags.lean ====
section
/-! DEFINITION. The block has no flags, condition codes or status bits (R15). In their place this file says which error
event each outcome is (R110): values computed beside an operation, never stored, reported or read (R112, log 23). -/

namespace Sys2Proof.Machine

/-- The event an outcome of DECODE is, if it is one (R55, R110). -/
def DecodeResult.event : DecodeResult → Option Event
  | .frame _ _ => none
  | .needMoreData => some .needMoreData
  | .badLength => some .badLength
  | .invalid span => some (.invalid span)

/-- The Overflow events of storing `n` bytes one by one from cursor `wr`: one each time a full buffer takes another byte
(R65, R66, R110). -/
def storeEvents (cap : Nat) : Nat → Nat → List Event
  | _, 0 => []
  | wr, n + 1 =>
    if wr = cap then (if 0 < wr then [.overflow] else []) ++ storeEvents cap 1 n
    else storeEvents cap (wr + 1) n

/-- The events of `PUSH(b)` (R65, R110): Overflow when a line that sets `WR <- 0` runs with `WR > 0`. -/
def pushEvents (cap wr : Nat) (b : List Byte) : List Event :=
  if wr + b.length > cap then (if 0 < wr then [.overflow] else []) ++ storeEvents cap 0 b.length
  else storeEvents cap wr b.length

end Sys2Proof.Machine
end

