-- ==== Sys2Proof/Machine/Framer.lean ====
section
/-! DEFINITION. ENCODE (spec 41_framer_encode.md). -/

namespace Sys2Proof.Machine

/-- `ENCODE(cmd, payload)` (R50): the wire frame, its CRC over `cmd ‖ len ‖ payload`. -/
def encodeFrame (cmd : Byte) (payload : List Byte) : List Byte :=
  wireFrame cmd payload (crc8 (frameBody cmd payload))

/-- ENCODE. Any command byte is framed (R52); a payload above 16 bytes is refused (R51, U1). -/
def execEncode (cmd : Byte) (payload : List Byte) (s : State) : Result :=
  if payload.length ≤ maxPayload then .next (s.respond (.bytes (encodeFrame cmd payload)))
  else .refused .oversizedPayload

end Sys2Proof.Machine
end

