-- ==== Sys2Proof/Machine/Device.lean ====
section
/-! DEFINITION. The consumer of frames: what each command means at the device (spec 44_commands.md), the dispatch on the
command code (R94, R95, R98), the actuator's pulse width (R96, R97) and the timeout (R99). The seven frame
instructions: a frame that the parser passes is applied, one that it drops changes nothing (R94). -/

namespace Sys2Proof.Machine

/-! The environment's registers. -/

/-- The DeviceState takes a new value. -/
def Env.setDevice (e : Env) (d : DeviceState) : Env := { e with device := d }

/-- The Control Loop's state takes a new value. -/
def Env.setLoop (e : Env) (l : LoopState) : Env := { e with loop := l }

/-- `Actuator.disable()` or `Actuator.writePulseWidth(us)` (R90). -/
def Env.setActuator (e : Env) (a : Actuator) : Env := { e with actuator := a }

/-- `Transport.write(bytes)` (R90). -/
def Env.transmit (e : Env) (bytes : List Byte) : Env := { e with tx := e.tx ++ bytes }

/-! The commands' effects. -/

/-- `lastCommandTimestamp <- now`, for every frame and before anything else (R94). -/
def Env.refreshTimestamp (e : Env) : Env := e.setDevice { e.device with lastCommandTimestamp := e.loop.clock }

/-- SetSteering (R80): with 2 bytes or more, the little-endian position; a short payload is ignored. -/
def Env.steer (e : Env) (payload : List Byte) : Env :=
  match wordOperand payload with
  | some w => e.setDevice { e.device with commandedPosition := w }
  | none => e

/-- `min(payload[0], 100)` (R81). -/
def clampGain (g : Byte) : Byte := if g.toNat ≤ 100 then g else 100

/-- SetGain (R81). -/
def Env.changeGain (e : Env) (payload : List Byte) : Env :=
  match byteOperand payload with
  | some g => e.setDevice { e.device with gain := clampGain g }
  | none => e

/-- SetEnable (R82): zero disables and relaxes the actuator (C3, log 21). The fault code is not cleared (N20). -/
def Env.changeEnable (e : Env) (payload : List Byte) : Env :=
  match byteOperand payload with
  | some b =>
    if b = 0 then (e.setDevice { e.device with enabled := false }).setActuator .relaxed
    else e.setDevice { e.device with enabled := true }
  | none => e

/-- `applyCommand(command, payload)` (R94, R95): the timestamp, then the command's effect. Heartbeat has none (R85);
device-to-host codes and unassigned codes are ignored (R86, R98). -/
def Env.applyCommand (e : Env) (cmd : Byte) (payload : List Byte) : Env :=
  let e1 := e.refreshTimestamp
  match Command.ofCode cmd with
  | some .setSteering => e1.steer payload
  | some .setGain => e1.changeGain payload
  | some .setEnable => e1.changeEnable payload
  | some .telemetry => e1
  | some .fault => e1
  | some .heartbeat => e1
  | none => e1

/-- A frame that DRAIN emitted is applied (R101 step 1). -/
def Env.applyFrame (e : Env) (f : Frame) : Env := e.applyCommand f.command f.payload

/-- Does the parser pass this wire frame to the consumer: `LEN ≤ 16` (R57) and the checksum matches (R59)? -/
def framePasses (cmd : Byte) (payload : List Byte) (crc : Byte) : Bool :=
  decide (payload.length ≤ maxPayload) && checksumMatches cmd payload crc

/-- A wire frame reaches the device: applied if the parser passes it, dropped silently if not (R94, R104). The block's
own state is not touched (R87); nothing is answered (R37 (g)). Log 6. -/
def receiveFrame (cmd : Byte) (payload : List Byte) (crc : Byte) (s : State) : Result :=
  .next ((if framePasses cmd payload crc then s.setEnv (s.env.applyCommand cmd payload) else s).respond .none)

/-- SetSteering (R80). -/
def execSetSteering (payload : List Byte) (crc : Byte) (s : State) : Result :=
  receiveFrame (Command.code .setSteering) payload crc s

/-- SetGain (R81). -/
def execSetGain (payload : List Byte) (crc : Byte) (s : State) : Result :=
  receiveFrame (Command.code .setGain) payload crc s

/-- SetEnable (R82). -/
def execSetEnable (payload : List Byte) (crc : Byte) (s : State) : Result :=
  receiveFrame (Command.code .setEnable) payload crc s

/-- Telemetry arriving at the device (R83: unrecognised there, R86). Its sending is the Control Loop's (log 7). -/
def execTelemetry (payload : List Byte) (crc : Byte) (s : State) : Result :=
  receiveFrame (Command.code .telemetry) payload crc s

/-- Fault arriving at the device (R84: unrecognised there, R86). Its sending is the Control Loop's (log 7). -/
def execFault (payload : List Byte) (crc : Byte) (s : State) : Result :=
  receiveFrame (Command.code .fault) payload crc s

/-- Heartbeat arriving at the device (R85). Its sending is the Control Loop's (log 7). -/
def execHeartbeat (payload : List Byte) (crc : Byte) (s : State) : Result :=
  receiveFrame (Command.code .heartbeat) payload crc s

/-- A frame with any other command code (R86). It acts by the CMD byte it holds (log 8). -/
def execRaw (cmd : Byte) (payload : List Byte) (crc : Byte) (s : State) : Result :=
  receiveFrame cmd payload crc s

/-! The actuator (R96, R97). -/

/-- `deflection = commandedPosition * gain / 100`, the product without wrap, the division truncating (R96, log 19). -/
def deflection (c : Config) (d : DeviceState) : Int :=
  let product := asS16 d.commandedPosition * (d.gain.toNat : Int)
  match c.rounding with
  | .towardZero => product.tdiv 100
  | .towardNegInf => product.fdiv 100

/-- Into `[SERVO_MIN_US, SERVO_MAX_US]` (R96). -/
def clampPulse (c : Config) (us : Nat) : Nat := max c.servoMinUs (min us c.servoMaxUs)

/-- The linear map, as far as R97 fixes it: the two ends of the range; elsewhere a free value (log 18). -/
def mapDeflection (c : Config) (d : Int) : Nat :=
  if d = 32767 then c.servoMaxUs
  else if d = -32768 then c.servoMinUs
  else Config.freePulseUs c.servoMinUs c.servoMaxUs d

/-- `computeActuatorMicroseconds()` (R96). -/
def computeActuatorMicroseconds (c : Config) (d : DeviceState) : Nat :=
  clampPulse c (mapDeflection c (deflection c d))

/-! The timeout (R99). -/

/-- The guard of `evaluateTimeout`: enabled, and strictly more than `SERIAL_TIMEOUT` since the last frame (R99). -/
def Env.timedOut (c : Config) (e : Env) : Bool :=
  e.device.enabled && decide (e.loop.clock - e.device.lastCommandTimestamp > c.serialTimeout)

/-- `evaluateTimeout(now)` (R99): the DeviceState after it, and the fault it answers. -/
def Env.evaluateTimeout (c : Config) (e : Env) : Env × Option FaultCode :=
  if e.timedOut c then
    (e.setDevice { e.device with enabled := false, faultCode := .serialTimeout }, some .serialTimeout)
  else (e, none)

end Sys2Proof.Machine
end

