-- ==== Sys2Proof/Machine/Reassembler.lean ====
section
/-! DEFINITION. PUSH and DRAIN (spec 43_reassembler.md). -/

namespace Sys2Proof.Machine

/-! PUSH. -/

/-- `BUF[WR] <- b`, `WR <- WR + 1` (R65). -/
def appendByte (s : State) (b : Byte) : OrFault State := (s.memWrite s.wr [b]).map fun s1 => s1.setWr (s.wr + 1)

/-- One turn of PUSH's loop (R65): a full buffer is emptied first (R66). -/
def storeByte (s : State) (b : Byte) : OrFault State := appendByte (if s.wr = s.cfg.cap then s.discard else s) b

/-- The loop of PUSH over the bytes in order (R65). -/
def storeBytes : State → List Byte → OrFault State
  | s, [] => .ok s
  | s, b :: bs =>
    match storeByte s b with
    | .ok s1 => storeBytes s1 bs
    | .error f => .error f

/-- `PUSH(b)` (R65): if the burst does not fit after the bytes held, all of them are discarded first. -/
def pushBytes (s : State) (b : List Byte) : OrFault State :=
  storeBytes (if s.wr + b.length > s.cfg.cap then s.discard else s) b

/-- PUSH. -/
def execPush (bytes : List Byte) (s : State) : Result :=
  OrFault.toResult ((pushBytes s bytes).map fun s1 => s1.respond .none)

/-! DRAIN. -/

/-- What one turn of DRAIN's loop does at POS (R67): end the scan, move on by an event, or emit a frame. -/
inductive Turn where
  | stop (e : Option Event)
  | move (e : Event) (by' : Nat)
  | emit (f : Frame) (by' : Nat)
  deriving DecidableEq, Repr

/-- A turn that ends in an event: its effect on POS is the shared one (R110). -/
def Turn.ofEvent (e : Event) : Turn :=
  match e.advance with
  | some n => .move e n
  | none => .stop (some e)

/-- What an outcome of DECODE does to the scan: a frame is emitted and its span passed (R70); anything else is an event. -/
def Turn.ofDecode : DecodeResult → Turn
  | .frame f consumed => .emit f consumed
  | .needMoreData => .ofEvent .needMoreData
  | .badLength => .ofEvent .badLength
  | .invalid consumed => .ofEvent (.invalid consumed)

/-- One turn on `BUF[POS..WR)`: fewer than 2 bytes end the scan (R68); no header is a miss (R69); a header hit is decoded
(R70, R71, R72). The order of the tests is R114's. -/
def scanTurn (rest : List Byte) : Turn :=
  if rest.length < 2 then .stop none
  else if beginsWithHeader rest then .ofDecode (decodeFrame rest)
  else .ofEvent .headerMiss

/-- The end of a scan: POS, the frames emitted in order, the events in order. -/
structure ScanResult where
  pos : Nat
  frames : List Frame
  events : List Event
  deriving DecidableEq, Repr

/-- The loop of DRAIN (R67) over the valid bytes `data`, from POS. Each turn raises POS or ends the loop, so `|data|`
turns are enough (R74 (c)); the count is the recursion's. -/
def scanLoop (data : List Byte) : Nat → Nat → ScanResult
  | 0, pos => ⟨pos, [], []⟩
  | turns + 1, pos =>
    match scanTurn (data.drop pos) with
    | .stop e => ⟨pos, [], e.toList⟩
    | .move e n =>
      let r := scanLoop data turns (pos + n)
      ⟨r.pos, r.frames, e :: r.events⟩
    | .emit f n =>
      let r := scanLoop data turns (pos + n)
      ⟨r.pos, f :: r.frames, r.events⟩

/-- The scan of a DRAIN: every DRAIN starts at index 0 (R67). -/
def scan (data : List Byte) : ScanResult := scanLoop data data.length 0

/-- Compaction (R73): the bytes from POS on move to index 0 in order, and `WR <- WR - POS`; what stays above is stale. -/
def compact (s : State) (data : List Byte) (pos : Nat) : OrFault State :=
  match s.memWrite 0 (data.drop pos) with
  | .ok s1 => .ok ((s1.setBuf (s1.buf.forgetFrom (s.wr - pos))).setWr (s.wr - pos))
  | .error f => .error f

/-- `DRAIN()` (R67): read the valid bytes, scan, compact on every exit (R73, D13); the frames emitted, in order. -/
def drainFrames (s : State) : OrFault (State × List Frame) :=
  match s.memRead 0 s.wr with
  | .error f => .error f
  | .ok data =>
    let r := scan data
    match compact s data r.pos with
    | .ok s1 => .ok (s1, r.frames)
    | .error f => .error f

/-- DRAIN: the response is the good frames only (R112). -/
def execDrain (s : State) : Result :=
  OrFault.toResult ((drainFrames s).map fun p => p.1.respond (.frames p.2))

end Sys2Proof.Machine
end

