-- ==== Sys2Proof/Machine/ControlLoop.lean ====
section
/-! DEFINITION. The Control Loop (spec 45_environment.md R100 to R102): its eight steps, one environment action each, and
the iteration that asks for them in order. The sending of Telemetry, Fault and Heartbeat frames is here (R52, R83 to
R85). -/

namespace Sys2Proof.Machine

/-- Step 1 (R101): PUSH the transport's bytes, DRAIN, apply each emitted frame in arrival order. -/
def receiveBytes (bytes : List Byte) (s : State) : OrFault State :=
  match pushBytes s bytes with
  | .error f => .error f
  | .ok s1 =>
    match drainFrames s1 with
    | .error f => .error f
    | .ok (s2, frames) => .ok (s2.setEnv (frames.foldl Env.applyFrame s2.env))

/-- Step 2 (R99, R101): on a timeout disable the actuator and send a Fault frame with the fault code (R84). -/
def Env.checkTimeout (c : Config) (e : Env) : Env :=
  match e.evaluateTimeout c with
  | (e1, some code) =>
    (e1.setActuator .relaxed).transmit (encodeFrame (Command.code .fault) [faultByte code])
  | (e1, none) => e1

/-- Step 3 (R101): the sample is retained, enabled or not. -/
def Env.sampleAngle (e : Env) (raw : Word16) : Env := e.setLoop { e.loop with angleRaw := raw }

/-- Step 4 (R101): if enabled, compute the target and write it; otherwise the actuator is not touched. -/
def Env.actuate (c : Config) (e : Env) : Env :=
  if e.device.enabled then e.setActuator (.driven (computeActuatorMicroseconds c e.device)) else e

/-- Step 5 (R83, R101): if the telemetry interval has elapsed since the last emission (logs 15, 30), send Telemetry. -/
def Env.emitTelemetry (c : Config) (e : Env) : Env :=
  if e.loop.clock - e.loop.lastTelemetry ≥ c.telemetryInterval then
    (e.setLoop { e.loop with lastTelemetry := e.loop.clock }).transmit
      (encodeFrame (Command.code .telemetry) (telemetryPayload e.loop.angleRaw e.loop.loopRateHz))
  else e

/-- Step 6 (R85, R101): if the heartbeat interval has elapsed since the last emission (logs 15, 30), send Heartbeat. -/
def Env.emitHeartbeat (c : Config) (e : Env) : Env :=
  if e.loop.clock - e.loop.lastHeartbeat ≥ c.heartbeatInterval then
    (e.setLoop { e.loop with lastHeartbeat := e.loop.clock }).transmit (encodeFrame (Command.code .heartbeat) [])
  else e

/-- A loop count as the `u16` of the TelemetrySample (R93); a count that does not fit is a free value (log 16). -/
def loopRate (n : Nat) : Word16 := if n < 65536 then BitVec.ofNat 16 n else Config.freeLoopRate n

/-- Step 7 (R101): update the loop counter; once per second take it as `loopRateHz` and reset it (logs 15, 16). -/
def Env.countLoop (e : Env) : Env :=
  let n := e.loop.loopCounter + 1
  if e.loop.clock - e.loop.lastSnapshot ≥ 1000 then
    e.setLoop { e.loop with loopRateHz := loopRate n, loopCounter := 0, lastSnapshot := e.loop.clock }
  else e.setLoop { e.loop with loopCounter := n }

/-- The target period in milliseconds, `1000/CONTROL_LOOP_HZ` (R100, log 17). -/
def periodMs (c : Config) : Nat := 1000 / c.controlLoopHz

/-- Step 8 (R101, R102): idle up to the period if the iteration undershoots it; otherwise go on at once. -/
def Env.pace (c : Config) (e : Env) : Env :=
  e.setLoop { e.loop with clock := max e.loop.clock (e.loop.iterationStart + periodMs c) }

/-- The clock moves on (R90). -/
def Env.advanceClock (e : Env) (ms : Nat) : Env := e.setLoop { e.loop with clock := e.loop.clock + ms }

/-- The eight steps of an iteration in their fixed order, with the time that passes before each (R101, log 27). -/
def iterationRequests (inp : LoopInputs) : List Request :=
  let wait (k : Nat) : Request := .environment (.advanceClock (inp.delays.getD k 0))
  [ .environment (.receive inp.received),
    wait 0, .environment .checkTimeout,
    wait 1, .environment (.sampleAngle inp.angle),
    wait 2, .environment .actuate,
    wait 3, .environment .emitTelemetry,
    wait 4, .environment .emitHeartbeat,
    wait 5, .environment .countLoop,
    wait 6, .environment .pace ]

/-- An iteration begins now, and its steps are asked for before anything else (R101). -/
def beginIteration (inp : LoopInputs) (s : State) : State :=
  (s.setEnv (s.env.setLoop { s.env.loop with iterationStart := s.env.loop.clock })).setRequests
    (iterationRequests inp ++ s.requests)

/-- What each environment action does. -/
def environmentAction (a : EnvAction) (s : State) : Result :=
  match a with
  | .receive bytes => OrFault.toResult ((receiveBytes bytes s).map fun s1 => s1.respond .none)
  | .checkTimeout => .next ((s.setEnv (s.env.checkTimeout s.cfg)).respond .none)
  | .sampleAngle raw => .next ((s.setEnv (s.env.sampleAngle raw)).respond .none)
  | .actuate => .next ((s.setEnv (s.env.actuate s.cfg)).respond .none)
  | .emitTelemetry => .next ((s.setEnv (s.env.emitTelemetry s.cfg)).respond .none)
  | .emitHeartbeat => .next ((s.setEnv (s.env.emitHeartbeat s.cfg)).respond .none)
  | .countLoop => .next ((s.setEnv s.env.countLoop).respond .none)
  | .pace => .next ((s.setEnv (s.env.pace s.cfg)).respond .none)
  | .advanceClock ms => .next ((s.setEnv (s.env.advanceClock ms)).respond .none)
  | .iteration inp => .next ((beginIteration inp s).respond .none)

end Sys2Proof.Machine
end

