-- ==== Sys2Proof/Machine/CrcUnit.lean ====
section
/-! DEFINITION. The streaming CRC unit and RESET (spec 40_crc8.md section 2, 70_reset_and_hazards.md R130). -/

namespace Sys2Proof.Machine

/-- RESET: `WR <- 0`, `CRC <- 0x00`, BUF unspecified (R130). The environment is not part of the block (R132). -/
def execReset (s : State) : Result := .next ((s.discard.setCrc crcInitial).respond .none)

/-- CRC8.INIT: `CRC <- 0x00` (R41). -/
def execCrcInit (s : State) : Result := .next ((s.setCrc crcInitial).respond .none)

/-- CRC8.UPDATE(b): `CRC <- crc8_step(CRC, b)` (R42). -/
def execCrcUpdate (b : Byte) (s : State) : Result := .next ((s.setCrc (crcStep s.crc b)).respond .none)

/-- CRC8.READ: the register itself, unchanged (R43). -/
def execCrcRead (s : State) : Result := .next (s.respond (.byte s.crc))

end Sys2Proof.Machine
end

