-- ==== Sys2Proof/Machine/Dispatch.lean ====
section
/-! DEFINITION. One arm per instruction: its meaning. -/

namespace Sys2Proof.Machine

def exec (i : Instr) (s : State) : Host.Outcome State Fault Refusal :=
  match i with
  -- frames (44_commands.md)
  | .setSteering payload crc => Sys2Proof.Machine.execSetSteering payload crc s
  | .setGain payload crc => Sys2Proof.Machine.execSetGain payload crc s
  | .setEnable payload crc => Sys2Proof.Machine.execSetEnable payload crc s
  | .telemetry payload crc => Sys2Proof.Machine.execTelemetry payload crc s
  | .fault payload crc => Sys2Proof.Machine.execFault payload crc s
  | .heartbeat payload crc => Sys2Proof.Machine.execHeartbeat payload crc s
  | .raw cmd payload crc => Sys2Proof.Machine.execRaw cmd payload crc s
  -- operations (30_encoding.md R39)
  | .reset => Sys2Proof.Machine.execReset s
  | .crcInit => Sys2Proof.Machine.execCrcInit s
  | .crcUpdate b => Sys2Proof.Machine.execCrcUpdate b s
  | .crcRead => Sys2Proof.Machine.execCrcRead s
  | .encode cmd payload => Sys2Proof.Machine.execEncode cmd payload s
  | .decode bytes => Sys2Proof.Machine.execDecode bytes s
  | .push bytes => Sys2Proof.Machine.execPush bytes s
  | .drain => Sys2Proof.Machine.execDrain s

end Sys2Proof.Machine
end

