-- ==== Sys2Proof/Machine/Step.lean ====
section
/-! DEFINITION. One step of the machine: what is asked first is done (R8, R39; log 5). A wire frame is fetched from the
bytes that arrive (R101 step 1): they go through PUSH and DRAIN, and the frame the scan recognises is executed. -/

namespace Sys2Proof.Machine

/-- One step. A block with `CAP < 21` is refused (R131, U9). With nothing asked, nothing happens (R14). -/
def step (s : State) : Host.Outcome State Fault Refusal :=
  if s.cfg.cap < maxFrame then .refused .capacityTooSmall
  else
    match s.requests with
    | [] => .next s
    | .perform i :: rest => exec i (s.setRequests rest)
    | .environment a :: rest => environmentAction a (s.setRequests rest)

/-- The instruction of an opcode-table word placed where the next step fetches it: its bytes arrive at the device, into
an empty receive buffer (log 28). -/
def State.withFetchWord (s : State) (nbits w : Nat) : State :=
  (s.withBytes []).setRequests (.environment (.receive (tableBytes nbits w)) :: s.requests)

end Sys2Proof.Machine
end

