-- ==== Sys2Proof/Safety.lean ====
section
/-! DEFINITION. What a legal state is, and what claims about runs are stated in. -/

namespace Sys2Proof

/-- The open parameters as the spec constrains them: `CAP ≥ 21` (R5, R131), `DEFAULT_GAIN ≤ 100`, `SERVO_MIN_US ≤
SERVO_MAX_US` (R91). -/
def Config.legal (c : Config) : Bool :=
  decide (maxFrame ≤ c.cap) && decide (c.defaultGain.toNat ≤ 100) && decide (c.servoMinUs ≤ c.servoMaxUs)

end Sys2Proof

namespace Sys2Proof.Machine

/-- `ceil(log2(CAP + 1))`: the width of WR in bits (R5, R10). -/
def wrWidth (cap : Nat) : Nat := Nat.log2 cap + 1

/-- The block's invariant: BUF has a value exactly at the valid indices `0..WR-1` (R11), in canonical form, and
`WR ≤ CAP` (R12). -/
def State.blockOk (s : State) : Bool :=
  decide (s.buf.map Prod.fst = List.range s.wr) && decide (s.wr ≤ s.cfg.cap)

/-- The environment's invariant: `gain ≤ 100` (R92); a disabled device does not drive the actuator (R82, R99, R101 step 4)
and a driven actuator is inside its range (R97); no fault code but None and SerialTimeout is ever raised (R36). -/
def Env.ok (c : Config) (e : Env) : Bool :=
  decide (e.device.gain.toNat ≤ 100) &&
  (match e.actuator with
    | .relaxed => true
    | .driven us => e.device.enabled && decide (c.servoMinUs ≤ us) && decide (us ≤ c.servoMaxUs)) &&
  (e.device.faultCode == .none || e.device.faultCode == .serialTimeout)

/-- The invariant of the machine. -/
def State.Inv (s : State) : Prop := s.cfg.legal = true ∧ s.blockOk = true ∧ s.env.ok s.cfg = true

/-- A sequence of instructions, one after the other (R8), up to the first stop. -/
def execAll : List Instr → State → Result
  | [], s => .next s
  | i :: is, s =>
    match exec i s with
    | .next s1 => execAll is s1
    | .fault f => .fault f
    | .refused r => .refused r

/-- A byte stream delivered in bursts, each pushed and then drained: the state after the last, and every frame emitted,
in order. None if an operation stops. -/
def deliverChunks : List (List Byte) → State → Option (State × List Frame)
  | [], s => some (s, [])
  | c :: cs, s =>
    match execAll [.push c, .drain] s with
    | .next t =>
      match t.response with
      | .frames fs => (deliverChunks cs t).map fun p => (p.1, fs ++ p.2)
      | _ => none
    | _ => none

/-- The frame instruction of an emitted Frame. -/
def frameInstr (f : Frame) : Instr := Instr.ofFrame f.command f.payload f.checksum

end Sys2Proof.Machine
end

