-- ==== Sys2Proof/Certificates/Slice0/Obligations.lean ====
section
/-! DEFINITION. The statements for the provers. `s.withBytes bs` is the state whose receive buffer holds exactly `bs`
(`BUF[0..WR)`, R11); a state meets the block's invariant when it is of that form with `|bs| ≤ CAP`. -/

open Sys2Proof Sys2Proof.Machine

/-! Encoding. -/

/-- Words written out from R30 and R34, one for each row of the table with an encoding, decode to their instruction. -/
def Obligations.WordsOfTheTableDecodeToTheirInstruction : Prop :=
  decode [0xAA, 0x55, 0x01, 0x02, 0xF4, 0x01, 0x87] = .ok (.setSteering [0xF4, 0x01] 0x87, []) ∧
  decode [0xAA, 0x55, 0x02, 0x01, 0x32, 0x5D] = .ok (.setGain [0x32] 0x5D, []) ∧
  decode [0xAA, 0x55, 0x03, 0x01, 0x01, 0xAF] = .ok (.setEnable [0x01] 0xAF, []) ∧
  decode [0xAA, 0x55, 0x10, 0x04, 0xFE, 0xFF, 0xE8, 0x03, 0x1F] = .ok (.telemetry [0xFE, 0xFF, 0xE8, 0x03] 0x1F, []) ∧
  decode [0xAA, 0x55, 0x11, 0x01, 0x01, 0xDB] = .ok (.fault [0x01] 0xDB, []) ∧
  decode [0xAA, 0x55, 0xF0, 0x00, 0x14] = .ok (.heartbeat [] 0x14, []) ∧
  decode [0xAA, 0x55, 0x7E, 0x00, 0x74] = .ok (.raw 0x7E [] 0x74, [])

/-- Exactly the six codes of R34 select a command. -/
def Obligations.ExactlySixCommandCodesAreAssigned : Prop :=
  ∀ (b : Byte) (c : Command), Command.ofCode b = some c ↔
    (b = 0x01 ∧ c = .setSteering) ∨ (b = 0x02 ∧ c = .setGain) ∨ (b = 0x03 ∧ c = .setEnable) ∨
    (b = 0x10 ∧ c = .telemetry) ∨ (b = 0x11 ∧ c = .fault) ∨ (b = 0xF0 ∧ c = .heartbeat)

/-- Decode of encode: for every frame instruction of legal shape, whatever its payload and its CRC byte, and whatever
bytes come after it (R30, R32). -/
def Obligations.DecodeOfEncodeIsTheInstruction : Prop :=
  ∀ (i : Instr) (bs t : List Byte), i.shapeOk = true → encode i = some bs → decode (bs ++ t) = .ok (i, t)

/-- Encode of decode: what is decoded has a legal shape, and its encoding is the bytes it was read from. -/
def Obligations.EncodeOfDecodeIsTheBytes : Prop :=
  ∀ (i : Instr) (bs t : List Byte), decode bs = .ok (i, t) →
    i.shapeOk = true ∧ ∃ f, encode i = some f ∧ f ++ t = bs

/-- What the instruction decoder rejects, and under which name. -/
def Obligations.DecoderRejectsByName : Prop :=
  ∀ bs : List Byte,
    (decode bs = .error .badHeader ↔ 2 ≤ bs.length ∧ beginsWithHeader bs = false) ∧
    (decode bs = .error .badLength ↔ ∃ c len r, bs = 0xAA :: 0x55 :: c :: len :: r ∧ 16 < len.toNat) ∧
    (decode bs = .error .truncated ↔ bs.length < 2 ∨ (∃ r, bs = 0xAA :: 0x55 :: r ∧ r.length < 2) ∨
      ∃ c len r, bs = 0xAA :: 0x55 :: c :: len :: r ∧ len.toNat ≤ 16 ∧ r.length ≤ len.toNat)

/-- DECODE answers a Frame exactly where the instruction decoder reads that frame and its checksum matches (R60). -/
def Obligations.BlockDecodeAgreesWithInstructionDecoder : Prop :=
  ∀ (s : List Byte) (f : Frame) (n : Nat), beginsWithHeader s = true →
    (decodeFrame s = .frame f n ↔
      n ≤ s.length ∧ n = 5 + f.payload.length ∧ f.checksum = crc8 (f.command :: lenByte f.payload :: f.payload) ∧
      decode s = .ok (frameInstr f, s.drop n))

/-- R35: a 16-bit operand is read back from the bytes the sender builds, at any place a payload goes on; its value is low
byte plus 256 times high byte; as an `s16` it is that value, less 65536 from 32768 on. -/
def Obligations.PayloadWordsAreLittleEndian : Prop :=
  (∀ (w : Word16) (rest : List Byte), wordOperand (le16Bytes w ++ rest) = some w) ∧
  (∀ b0 b1 : Byte, (le16 b0 b1).toNat = b0.toNat + 256 * b1.toNat) ∧
  (∀ w : Word16, asS16 w = w.toInt) ∧
  (∀ a r : Word16, telemetryPayload a r = le16Bytes a ++ le16Bytes r ∧ (telemetryPayload a r).length = 4)

/-! CRC-8. -/

/-- R40: exclusive-or the byte into the register, then 8 times: shift left, and exclusive-or 0x07 if bit 7 was set. -/
def Obligations.CrcStepIsTheShiftRegister : Prop :=
  ∀ c b : Byte,
    crcStep c b = (fun r : Byte => if r.getLsbD 7 then (r <<< 1) ^^^ 0x07 else r <<< 1)^[8] (c ^^^ b)

/-- R45: the bit-serial form, the parallel form and the table of 95_test_vectors.md give the same step. -/
def Obligations.EquivalentCrcFormsAgree : Prop :=
  ∀ c b : Byte, crcStepSerial c b = crcStep c b ∧ crcStepParallel c b = crcStep c b ∧ crcStepTable c b = crcStep c b

/-- R46 (b), (d), (e): linear over exclusive-or for sequences of equal length; all-zero bytes of any number give 0x00;
leading zero bytes are invisible; a sequence followed by its own CRC gives 0x00. -/
def Obligations.CrcIsLinearWithZeroResidue : Prop :=
  (∀ s t : List Byte, s.length = t.length → crc8 (List.zipWith (· ^^^ ·) s t) = crc8 s ^^^ crc8 t) ∧
  (∀ n : Nat, crc8 (List.replicate n 0x00) = 0x00) ∧
  ∀ s : List Byte, crc8 (0x00 :: s) = crc8 s ∧ crc8 (s ++ [crc8 s]) = 0x00

/-- R46 (c): flipping any single bit of a sequence changes its CRC. -/
def Obligations.CrcDetectsEverySingleBitFlip : Prop :=
  ∀ (pre post : List Byte) (b : Byte) (j : Nat), j < 8 →
    crc8 (pre ++ (b ^^^ (1#8 <<< j)) :: post) ≠ crc8 (pre ++ b :: post)

/-- R41: CRC8.INIT completes in every state and changes nothing but CRC. -/
def Obligations.CrcInitClearsTheRegister : Prop :=
  ∀ s : State, exec .crcInit s = .next { s with crc := 0x00, response := .none }

/-- R42: CRC8.UPDATE completes in every state and changes nothing but CRC. -/
def Obligations.CrcUpdateStepsTheRegister : Prop :=
  ∀ (b : Byte) (s : State), exec (.crcUpdate b) s = .next { s with crc := crcStep s.crc b, response := .none }

/-- R43: CRC8.READ completes in every state, answers CRC and changes nothing. -/
def Obligations.CrcReadAnswersTheRegister : Prop :=
  ∀ s : State, exec .crcRead s = .next { s with response := .byte s.crc }

/-- R44: INIT and one UPDATE per byte in order leave `crc8` of the bytes in CRC, and READ answers it. -/
def Obligations.StreamedBytesGiveCrc8 : Prop :=
  ∀ (msg : List Byte) (s : State),
    execAll (.crcInit :: msg.map .crcUpdate) s = .next { s with crc := crc8 msg, response := .none } ∧
    execAll (.crcInit :: msg.map .crcUpdate ++ [.crcRead]) s =
      .next { s with crc := crc8 msg, response := .byte (crc8 msg) }

/-- R141: without an INIT in between, UPDATEs continue the message before: CRC is that of the concatenation. -/
def Obligations.UpdatesWithoutInitContinueTheMessage : Prop :=
  ∀ (a b : List Byte) (s : State), s.crc = crc8 a → b ≠ [] →
    execAll (b.map .crcUpdate) s = .next { s with crc := crc8 (a ++ b), response := .none }

/-! RESET. -/

/-- R130: RESET completes in every state: WR is 0, CRC is 0x00, BUF is some memory, nothing else changes. After it the
first DRAIN emits nothing, and after it and a PUSH that fits BUF holds only the bytes pushed. That RESET may be asked
in every state and leaves the environment and the requests alone is the model's choice (log 25); that bytes no longer
held have no value is too (log 3). -/
def Obligations.ResetClearsCursorAndCrc : Prop :=
  ∀ (s : State) (b : List Byte),
    (∃ m : Memory, exec .reset s = .next { s with buf := m, wr := 0, crc := 0x00, response := .none }) ∧
    (∃ t, execAll [.reset, .drain] s = .next t ∧ t.response = .frames []) ∧
    (b.length ≤ s.cfg.cap →
      execAll [.reset, .push b] s = .next { s.withBytes b with crc := 0x00, response := .none })

/-- R18 and, for the environment, R92: what start-up leaves, for every configuration. -/
def Obligations.StartupValuesAreTheSpecified : Prop :=
  ∀ c : Config, (State.resetOf c).wr = 0 ∧ (State.resetOf c).crc = 0x00 ∧
    (State.resetOf c).env.device.enabled = false ∧ (State.resetOf c).env.device.gain = c.defaultGain

/-! ENCODE and DECODE. -/

/-- R50, R52: for every command byte and every payload of at most 16 bytes ENCODE completes, answers
`AA 55 cmd len payload crc8(cmd len payload)`, 5 to 21 bytes, and changes nothing. -/
def Obligations.EncodeAnswersTheWireFrame : Prop :=
  ∀ (cmd : Byte) (p : List Byte) (s : State), p.length ≤ 16 →
    exec (.encode cmd p) s =
      .next { s with response := .bytes ([0xAA, 0x55, cmd, BitVec.ofNat 8 p.length] ++ p ++
        [crc8 (cmd :: BitVec.ofNat 8 p.length :: p)]) }

/-- R51: a payload above 16 bytes is refused. -/
def Obligations.OversizedEncodeIsRefused : Prop :=
  ∀ (cmd : Byte) (p : List Byte) (s : State), 16 < p.length → exec (.encode cmd p) s = .refused .oversizedPayload

/-- R53: DECODE of what ENCODE answers, whatever follows it, is that frame with its span; pushed into an empty buffer and
drained it comes out as exactly that one frame, and WR is 0. -/
def Obligations.EncodedFrameRoundTrips : Prop :=
  ∀ (cmd : Byte) (p t : List Byte) (s : State), p.length ≤ 16 →
    let f : Frame := ⟨cmd, p, crc8 (cmd :: BitVec.ofNat 8 p.length :: p)⟩
    exec (.encode cmd p) s = .next { s with response := .bytes (encodeFrame cmd p) } ∧
    exec (.decode (encodeFrame cmd p ++ t)) s =
      .next { s with response := .decoded (.frame f (5 + p.length)) } ∧
    (21 ≤ s.cfg.cap →
      execAll [.push (encodeFrame cmd p), .drain] (s.withBytes []) =
        .next { s.withBytes [] with response := .frames [f] })

/-- R56, R57, R58: a header with fewer than 4 bytes is NeedMoreData; with 4 or more, a LEN byte of 17 to 255 is
BadLength, however many bytes are there; a legal LEN with fewer than `5 + LEN` bytes is NeedMoreData. BadLength is the
spec's own outcome (D3). -/
def Obligations.DecodeBeforeTheChecksum : Prop :=
  ∀ (c len : Byte) (r : List Byte) (s : State),
    (r.length < 2 → exec (.decode (0xAA :: 0x55 :: r)) s = .next { s with response := .decoded .needMoreData }) ∧
    (16 < len.toNat →
      exec (.decode (0xAA :: 0x55 :: c :: len :: r)) s = .next { s with response := .decoded .badLength }) ∧
    (len.toNat ≤ 16 → 4 + r.length < 5 + len.toNat →
      exec (.decode (0xAA :: 0x55 :: c :: len :: r)) s = .next { s with response := .decoded .needMoreData })

/-- R59: a complete frame whose last byte is not the CRC of command, length and payload is Invalid, with its span. -/
def Obligations.DecodeOfAWrongChecksumIsInvalid : Prop :=
  ∀ (c k : Byte) (p t : List Byte) (s : State), p.length ≤ 16 → crc8 (c :: BitVec.ofNat 8 p.length :: p) ≠ k →
    exec (.decode ([0xAA, 0x55, c, BitVec.ofNat 8 p.length] ++ p ++ [k] ++ t)) s =
      .next { s with response := .decoded (.invalid (5 + p.length)) }

/-- R55 (U2): a sequence that does not begin `AA 55` is refused. -/
def Obligations.DecodeWithoutTheHeaderIsRefused : Prop :=
  ∀ (bs : List Byte) (s : State), (¬ ∃ r, bs = 0xAA :: 0x55 :: r) → exec (.decode bs) s = .refused .noHeader

/-- R61: more bytes at the end never change an outcome other than NeedMoreData. -/
def Obligations.DecodeOutcomeIsStableUnderMoreBytes : Prop :=
  ∀ (bs t : List Byte) (s u : State) (r : DecodeResult), r ≠ .needMoreData →
    exec (.decode bs) s = .next u → u.response = .decoded r → exec (.decode (bs ++ t)) s = .next u

/-! PUSH. -/

/-- R65: a burst that fits is appended. -/
def Obligations.PushAppendsABurstThatFits : Prop :=
  ∀ (s : State) (bs b : List Byte), bs.length + b.length ≤ s.cfg.cap →
    exec (.push b) (s.withBytes bs) = .next { s.withBytes (bs ++ b) with response := .none }

/-- R65: a burst that does not fit after the bytes held, but fits in the buffer, discards them all and is kept whole. -/
def Obligations.PushOverflowKeepsOnlyTheBurst : Prop :=
  ∀ (s : State) (bs b : List Byte), bs.length ≤ s.cfg.cap → b.length ≤ s.cfg.cap →
    s.cfg.cap < bs.length + b.length →
    exec (.push b) (s.withBytes bs) = .next { s.withBytes b with response := .none }

/-- R66 (b): of a burst longer than the buffer, the bytes after the last whole number of buffers stay. -/
def Obligations.PushLongerThanTheBufferKeepsTheLastBytes : Prop :=
  ∀ (s : State) (bs a c : List Byte), bs.length ≤ s.cfg.cap → 0 < a.length → a.length % s.cfg.cap = 0 →
    0 < c.length → c.length ≤ s.cfg.cap →
    exec (.push (a ++ c)) (s.withBytes bs) = .next { s.withBytes c with response := .none }

/-- PUSH's frame, in every state: a burst that fits writes `BUF[WR + k]` and no other byte, moves WR by its length, and
changes no other register. -/
def Obligations.PushChangesOnlyTheStoredBytes : Prop :=
  ∀ (s : State) (b : List Byte), s.wr + b.length ≤ s.cfg.cap →
    ∃ m : Memory, exec (.push b) s = .next { s with buf := m, wr := s.wr + b.length, response := .none } ∧
      (∀ k (h : k < b.length), m.read (s.wr + k) = some b[k]) ∧
      ∀ a, (a < s.wr ∨ s.wr + b.length ≤ a) → m.read a = s.buf.read a

/-! DRAIN. -/

/-- R67, R73, R74: DRAIN completes on every buffer content; some number of bytes is gone from the front, the rest keep
their order, and nothing but BUF and WR changes. -/
def Obligations.DrainRemovesAPrefix : Prop :=
  ∀ (s : State) (bs : List Byte), bs.length ≤ s.cfg.cap →
    ∃ k fs, k ≤ bs.length ∧ exec .drain (s.withBytes bs) = .next { s.withBytes (bs.drop k) with response := .frames fs }

/-- R69: where two bytes are not `AA 55` the first is skipped, as if it had not been there. -/
def Obligations.DrainSkipsAByteWithoutHeader : Prop :=
  ∀ (s : State) (x y : Byte) (r : List Byte), r.length + 2 ≤ s.cfg.cap → ¬ (x = 0xAA ∧ y = 0x55) →
    exec .drain (s.withBytes (x :: y :: r)) = exec .drain (s.withBytes (y :: r))

/-- R70 (b): a valid frame at POS is emitted, and the scan goes on after its span. -/
def Obligations.DrainEmitsAValidFrame : Prop :=
  ∀ (s : State) (c : Byte) (p r : List Byte), p.length ≤ 16 → 5 + p.length + r.length ≤ s.cfg.cap →
    ∃ (t : State) (fs : List Frame), exec .drain (s.withBytes r) = .next { t with response := .frames fs } ∧
      exec .drain (s.withBytes (encodeFrame c p ++ r)) =
        .next { t with response := .frames (⟨c, p, crc8 (c :: BitVec.ofNat 8 p.length :: p)⟩ :: fs) }

/-- R70 (c): an invalid frame at POS is skipped by its whole span, as if it had not been there. -/
def Obligations.DrainSkipsAnInvalidFrameWhole : Prop :=
  ∀ (s : State) (c k : Byte) (p r : List Byte), p.length ≤ 16 → 5 + p.length + r.length ≤ s.cfg.cap →
    crc8 (c :: BitVec.ofNat 8 p.length :: p) ≠ k →
    exec .drain (s.withBytes ([0xAA, 0x55, c, BitVec.ofNat 8 p.length] ++ p ++ [k] ++ r)) =
      exec .drain (s.withBytes r)

/-- R71: a header hit with LEN above 16 is passed by one byte, as if that byte had not been there; passing it by two gives
the same. -/
def Obligations.DrainPassesABadLengthByOneByte : Prop :=
  ∀ (s : State) (c len : Byte) (r : List Byte), 4 + r.length ≤ s.cfg.cap → 16 < len.toNat →
    exec .drain (s.withBytes (0xAA :: 0x55 :: c :: len :: r)) = exec .drain (s.withBytes (0x55 :: c :: len :: r)) ∧
    exec .drain (s.withBytes (0xAA :: 0x55 :: c :: len :: r)) = exec .drain (s.withBytes (c :: len :: r))

/-- R68, R72: with fewer than 2 bytes, or at a header hit whose frame is not complete, the scan stops: nothing is emitted
and every byte is kept. -/
def Obligations.DrainKeepsWhatIsNotComplete : Prop :=
  ∀ (s : State) (bs : List Byte), bs.length ≤ s.cfg.cap →
    (bs.length < 2 ∨ ∃ r, bs = 0xAA :: 0x55 :: r ∧
      (r.length < 2 ∨ ∃ c len q, r = c :: len :: q ∧ len.toNat ≤ 16 ∧ 4 + q.length < 5 + len.toNat)) →
    exec .drain (s.withBytes bs) = .next { s.withBytes bs with response := .frames [] }

/-- R75: after a DRAIN the buffer is empty, or holds one byte, or an incomplete frame of 2 to 20 bytes; a second DRAIN
emits nothing and changes nothing. That bytes at and above WR have no value is the model's choice (log 3). -/
def Obligations.AfterDrainOnlyAnIncompleteFrameIsHeld : Prop :=
  ∀ s t : State, s.blockOk = true → exec .drain s = .next t →
    ∃ bs, t = t.withBytes bs ∧
      (bs.length ≤ 1 ∨ (2 ≤ bs.length ∧ bs.length ≤ 20 ∧ ∃ r, bs = 0xAA :: 0x55 :: r ∧
        (bs.length < 4 ∨ ∃ c len q, r = c :: len :: q ∧ len.toNat ≤ 16 ∧ bs.length < 5 + len.toNat))) ∧
      exec .drain t = .next { t with response := .frames [] }

/-- R135: after a DRAIN a PUSH of at most `CAP - 20` bytes never overflows: no byte held is lost. -/
def Obligations.PushAfterDrainNeverOverflows : Prop :=
  ∀ (s t : State) (b : List Byte), 21 ≤ s.cfg.cap → s.blockOk = true → exec .drain s = .next t →
    b.length ≤ s.cfg.cap - 20 →
    ∃ bs, t = t.withBytes bs ∧ exec (.push b) t = .next { t.withBytes (bs ++ b) with response := .none }

/-- R25, R27: a stream that fits may be delivered in any bursts, with a DRAIN after each: together they emit what one
DRAIN of the whole stream emits, in the same order, each frame once, and leave the same bytes. -/
def Obligations.BurstsDeliverWhatTheWholeStreamDelivers : Prop :=
  ∀ (s : State) (bs : List Byte) (chunks : List (List Byte)), chunks ≠ [] →
    bs.length + chunks.flatten.length ≤ s.cfg.cap →
    ∃ u fs, deliverChunks chunks (s.withBytes bs) = some (u, fs) ∧
      exec .drain (s.withBytes (bs ++ chunks.flatten)) = .next { u with response := .frames fs }

/-- The source's framing property (95_test_vectors.md T2): two valid frames back to back, split arbitrarily across PUSHes,
come out as exactly those two, in order, once each, and nothing is left. -/
def Obligations.TwoFramesSplitAnywhereComeOutOnce : Prop :=
  ∀ (s : State) (c1 c2 : Byte) (p1 p2 : List Byte) (chunks : List (List Byte)),
    p1.length ≤ 16 → p2.length ≤ 16 → 10 + p1.length + p2.length ≤ s.cfg.cap →
    chunks.flatten = encodeFrame c1 p1 ++ encodeFrame c2 p2 →
    ∃ u, deliverChunks chunks (s.withBytes []) =
        some (u, [⟨c1, p1, crc8 (c1 :: lenByte p1 :: p1)⟩, ⟨c2, p2, crc8 (c2 :: lenByte p2 :: p2)⟩]) ∧ u.wr = 0

/-- The source's resynchronisation property (95_test_vectors.md T3) as R136 limits it: garbage that contains no pair
`AA 55`, then one valid frame, yields exactly that frame. -/
def Obligations.GarbageBeforeAFrameIsSkipped : Prop :=
  ∀ (s : State) (g p : List Byte) (c : Byte), p.length ≤ 16 → g.length + 5 + p.length ≤ s.cfg.cap →
    (¬ ∃ a b, g = a ++ 0xAA :: 0x55 :: b) →
    exec .drain (s.withBytes (g ++ encodeFrame c p)) =
      .next { s.withBytes [] with response := .frames [⟨c, p, crc8 (c :: lenByte p :: p)⟩] }

/-- R110, R65, R66: which error events a scan and a PUSH meet: HeaderMiss, BadLength and Invalid where they move the scan
on, NeedMoreData where it stops at an incomplete frame, none at a valid frame or at fewer than 2 bytes; Overflow each time
a PUSH empties a buffer that holds something. -/
def Obligations.ErrorEventsAreTheListedOutcomes : Prop :=
  (∀ (x y : Byte) (r : List Byte), ¬ (x = 0xAA ∧ y = 0x55) →
    (scan (x :: y :: r)).events = .headerMiss :: (scan (y :: r)).events) ∧
  (∀ (c len : Byte) (r : List Byte), 16 < len.toNat →
    (scan (0xAA :: 0x55 :: c :: len :: r)).events = .badLength :: (scan (0x55 :: c :: len :: r)).events) ∧
  (∀ (c k : Byte) (p r : List Byte), p.length ≤ 16 →
    (scan ([0xAA, 0x55, c, BitVec.ofNat 8 p.length] ++ p ++ [k] ++ r)).events =
      if crc8 (c :: BitVec.ofNat 8 p.length :: p) = k then (scan r).events
      else .invalid (5 + p.length) :: (scan r).events) ∧
  (∀ bs : List Byte, bs.length < 2 → (scan bs).events = []) ∧
  (∀ (c len : Byte) (r : List Byte), len.toNat ≤ 16 → 4 + r.length < 5 + len.toNat →
    (scan (0xAA :: 0x55 :: c :: len :: r)).events = [.needMoreData]) ∧
  (∀ r : List Byte, r.length < 2 → (scan (0xAA :: 0x55 :: r)).events = [.needMoreData]) ∧
  (∀ (cap wr : Nat) (b : List Byte), wr ≤ cap → 0 < cap →
    (wr + b.length ≤ cap → pushEvents cap wr b = []) ∧
    (cap < wr + b.length →
      pushEvents cap wr b = List.replicate ((if 0 < wr then 1 else 0) + (b.length - 1) / cap) .overflow))

/-! The commands. Each frame below passes the parser: LEN at most 16, the CRC byte that of the body. -/

/-- R80: two payload bytes or more set the position, little-endian; fewer set nothing; the timestamp is refreshed
(R94). -/
def Obligations.SetSteeringStoresThePosition : Prop :=
  ∀ (p : List Byte) (s : State), p.length ≤ 16 →
    exec (.setSteering p (crc8 (0x01 :: lenByte p :: p))) s =
      .next { s with
        env := { s.env with
          device := { s.env.device with
            lastCommandTimestamp := s.env.loop.clock
            commandedPosition :=
              match p with
              | b0 :: b1 :: _ => BitVec.ofNat 16 (b0.toNat + 256 * b1.toNat)
              | _ => s.env.device.commandedPosition } }
        response := .none }

/-- R81: one payload byte or more sets the gain to `min(payload[0], 100)`; an empty payload sets nothing; the timestamp
is refreshed (R94). -/
def Obligations.SetGainClampsToOneHundred : Prop :=
  ∀ (p : List Byte) (s : State), p.length ≤ 16 →
    exec (.setGain p (crc8 (0x02 :: lenByte p :: p))) s =
      .next { s with
        env := { s.env with
          device := { s.env.device with
            lastCommandTimestamp := s.env.loop.clock
            gain :=
              match p with
              | g :: _ => BitVec.ofNat 8 (min g.toNat 100)
              | [] => s.env.device.gain } }
        response := .none }

/-- R82: one payload byte or more sets `enabled` to whether it is nonzero, and zero relaxes the actuator; an empty
payload sets nothing; the timestamp is refreshed (R94); the fault code is not cleared. That a zero byte relaxes the
actuator also when the device is already disabled is DEDUCED (log 21). -/
def Obligations.SetEnableSetsEnabledAndRelaxes : Prop :=
  ∀ (p : List Byte) (s : State), p.length ≤ 16 →
    exec (.setEnable p (crc8 (0x03 :: lenByte p :: p))) s =
      .next { s with
        env := { s.env with
          device := { s.env.device with
            lastCommandTimestamp := s.env.loop.clock
            enabled :=
              match p with
              | b :: _ => b != 0x00
              | [] => s.env.device.enabled }
          actuator :=
            match p with
            | b :: _ => if b = 0x00 then .relaxed else s.env.actuator
            | [] => s.env.actuator }
        response := .none }

/-- R84 to R86, R98: Telemetry, Fault and Heartbeat frames and frames with an unassigned code that reach the device
refresh the timestamp and do nothing else, whatever their payload. That a frame instruction is the reception of its
wire frame (log 6), and that the Telemetry, Fault and Heartbeat rows are arrivals and not sendings (log 7), is
DEDUCED. -/
def Obligations.OtherFramesOnlyRefreshTheTimestamp : Prop :=
  ∀ (c : Byte) (p : List Byte) (s : State), p.length ≤ 16 → Command.ofCode c = none →
    let after : State :=
      { s with
        env := { s.env with device := { s.env.device with lastCommandTimestamp := s.env.loop.clock } }
        response := .none }
    exec (.telemetry p (crc8 (0x10 :: lenByte p :: p))) s = .next after ∧
    exec (.fault p (crc8 (0x11 :: lenByte p :: p))) s = .next after ∧
    exec (.heartbeat p (crc8 (0xF0 :: lenByte p :: p))) s = .next after ∧
    exec (.raw c p (crc8 (c :: lenByte p :: p))) s = .next after

/-- R94, R104: a frame the parser drops (a wrong CRC byte, LEN above 16) never reaches the consumer: nothing changes,
not even the timestamp. That a frame instruction is the reception of its wire frame is the model's choice (log 6). -/
def Obligations.FrameTheParserDropsChangesNothing : Prop :=
  ∀ (i : Instr) (c k : Byte) (p : List Byte) (s : State), i.frameParts = some (c, p, k) →
    (crc8 (c :: lenByte p :: p) ≠ k ∨ 16 < p.length) → exec i s = .next { s with response := .none }

/-- R87: no command resets the block, empties the receive buffer or changes CRC, and none is answered. -/
def Obligations.CommandsLeaveTheBlockAlone : Prop :=
  ∀ (i : Instr) (s : State), i.frameParts ≠ none → ∃ e : Env, exec i s = .next { s with env := e, response := .none }

/-- R10, R13: no operation touches the environment; ENCODE, DECODE, PUSH and DRAIN leave CRC alone, and the CRC8
operations, ENCODE and DECODE leave BUF and WR alone. -/
def Obligations.OperationsTouchOnlyTheirOwnState : Prop :=
  ∀ (i : Instr) (s t : State), i.frameParts = none → exec i s = .next t →
    t.env = s.env ∧ t.cfg = s.cfg ∧ t.requests = s.requests ∧
    (i ≠ .reset → i ≠ .crcInit → (∀ b, i ≠ .crcUpdate b) → t.crc = s.crc) ∧
    (i ≠ .reset → (∀ b, i ≠ .push b) → i ≠ .drain → t.buf = s.buf ∧ t.wr = s.wr)

/-! The environment (45_environment.md). -/

/-- R99, R84: enabled and strictly longer than `SERIAL_TIMEOUT` without a frame: disabled, SerialTimeout, the actuator
relaxed, one Fault frame sent; otherwise nothing; and evaluated again it does nothing more. -/
def Obligations.TimeoutDisablesAndReportsOnce : Prop :=
  ∀ (c : Config) (e : Env),
    (e.device.enabled = true → c.serialTimeout < e.loop.clock - e.device.lastCommandTimestamp →
      e.checkTimeout c =
        { e with
          device := { e.device with enabled := false, faultCode := .serialTimeout }
          actuator := .relaxed
          tx := e.tx ++ [0xAA, 0x55, 0x11, 0x01, 0x01, 0xDB] }) ∧
    (e.device.enabled = false ∨ e.loop.clock - e.device.lastCommandTimestamp ≤ c.serialTimeout → e.checkTimeout c = e) ∧
    (e.checkTimeout c).checkTimeout c = e.checkTimeout c

/-- R97: gain 100 passes the full commanded deflection through, and with the greatest and the least position it gives
the ends of the range; gain 0 gives, for every position, the pulse width for zero deflection (position 0, any gain);
the result always lies in the range. The rest of the map is a free value (log 18). R101 step 4: an enabled device
writes that pulse width and changes nothing else; a disabled one does not touch the actuator. -/
def Obligations.PulseWidthMeetsTheThreePointsAndTheRange : Prop :=
  ∀ (c : Config) (d : DeviceState), c.servoMinUs ≤ c.servoMaxUs →
    (d.gain = 100 → deflection c d = d.commandedPosition.toInt) ∧
    (d.gain = 100 → d.commandedPosition.toInt = 32767 → computeActuatorMicroseconds c d = c.servoMaxUs) ∧
    (d.gain = 100 → d.commandedPosition.toInt = -32768 → computeActuatorMicroseconds c d = c.servoMinUs) ∧
    (∀ (w : Word16) (g : Byte), d.gain = 0 →
      computeActuatorMicroseconds c { d with commandedPosition := w } =
        computeActuatorMicroseconds c { d with commandedPosition := 0, gain := g }) ∧
    c.servoMinUs ≤ computeActuatorMicroseconds c d ∧ computeActuatorMicroseconds c d ≤ c.servoMaxUs ∧
    ∀ e : Env,
      (e.device.enabled = true →
        e.actuate c = { e with actuator := .driven (computeActuatorMicroseconds c e.device) }) ∧
      (e.device.enabled = false → e.actuate c = e)

/-- R83, R85, R101 steps 5 and 6: when its interval has elapsed since the last emission the device sends `AA 55 10 04
angle rate crc`, both little-endian, and `AA 55 F0 00 14`, notes the time, and changes nothing else; before that it
changes nothing at all. That elapsed means at least the interval (log 15), on a clock that stands still inside an
action (log 14), in milliseconds (log 30), is the model's choice. -/
def Obligations.TelemetryAndHeartbeatAreSent : Prop :=
  ∀ (c : Config) (e : Env) (a0 a1 r0 r1 : Byte),
    (e.loop.angleRaw = le16 a0 a1 → e.loop.loopRateHz = le16 r0 r1 →
      c.telemetryInterval ≤ e.loop.clock - e.loop.lastTelemetry →
      e.emitTelemetry c =
        { e with
          loop := { e.loop with lastTelemetry := e.loop.clock }
          tx := e.tx ++ [0xAA, 0x55, 0x10, 0x04, a0, a1, r0, r1, crc8 [0x10, 0x04, a0, a1, r0, r1]] }) ∧
    (e.loop.clock - e.loop.lastTelemetry < c.telemetryInterval → e.emitTelemetry c = e) ∧
    (c.heartbeatInterval ≤ e.loop.clock - e.loop.lastHeartbeat →
      e.emitHeartbeat c =
        { e with
          loop := { e.loop with lastHeartbeat := e.loop.clock }
          tx := e.tx ++ [0xAA, 0x55, 0xF0, 0x00, 0x14] }) ∧
    (e.loop.clock - e.loop.lastHeartbeat < c.heartbeatInterval → e.emitHeartbeat c = e)

/-- R99, N20: no step sets the fault code back to None. -/
def Obligations.FaultCodeIsNeverCleared : Prop :=
  ∀ s t : State, step s = .next t → s.env.device.faultCode ≠ .none → t.env.device.faultCode ≠ .none

/-! The machine. -/

/-- R14, R39, R131: a legal block performs what is asked first, and nothing when nothing is asked; a block with `CAP <
21` is refused. A step of the Control Loop that is asked (R101 steps 2 to 8, R99) changes the environment by its
function and the block not at all; `TimeoutDisablesAndReportsOnce`, `PulseWidthMeetsTheThreePointsAndTheRange`,
`TelemetryAndHeartbeatAreSent` and `IterationAsksForItsStepsInOrder` say what those functions do. That requests stand
in a queue and that an unasked step changes nothing is the model's choice (log 5), as is one action for each step of
the loop (log 27). -/
def Obligations.StepPerformsWhatIsAskedFirst : Prop :=
  ∀ (s : State) (rest : List Request),
    let after (e : Env) : State := { s with env := e, requests := rest, response := .none }
    (s.cfg.cap < 21 → step s = .refused .capacityTooSmall) ∧
    (21 ≤ s.cfg.cap → s.requests = [] → step s = .next s) ∧
    (∀ i : Instr, 21 ≤ s.cfg.cap → s.requests = .perform i :: rest → step s = exec i { s with requests := rest }) ∧
    (21 ≤ s.cfg.cap → s.requests = .environment .checkTimeout :: rest →
      step s = .next (after (s.env.checkTimeout s.cfg))) ∧
    (∀ raw : Word16, 21 ≤ s.cfg.cap → s.requests = .environment (.sampleAngle raw) :: rest →
      step s = .next (after (s.env.sampleAngle raw))) ∧
    (21 ≤ s.cfg.cap → s.requests = .environment .actuate :: rest → step s = .next (after (s.env.actuate s.cfg))) ∧
    (21 ≤ s.cfg.cap → s.requests = .environment .emitTelemetry :: rest →
      step s = .next (after (s.env.emitTelemetry s.cfg))) ∧
    (21 ≤ s.cfg.cap → s.requests = .environment .emitHeartbeat :: rest →
      step s = .next (after (s.env.emitHeartbeat s.cfg))) ∧
    (21 ≤ s.cfg.cap → s.requests = .environment .countLoop :: rest → step s = .next (after s.env.countLoop)) ∧
    (21 ≤ s.cfg.cap → s.requests = .environment .pace :: rest → step s = .next (after (s.env.pace s.cfg))) ∧
    (∀ ms : Nat, 21 ≤ s.cfg.cap → s.requests = .environment (.advanceClock ms) :: rest →
      step s = .next (after (s.env.advanceClock ms)))

/-- A step runs the decoded instruction: bytes that arrive at the device and decode to an instruction, the buffer being
empty, are that instruction executed. That a frame instruction is the reception of its wire frame by the device is the
model's choice (log 6); requests stand in a queue (log 5). -/
def Obligations.StepRunsTheDecodedInstruction : Prop :=
  ∀ (s : State) (bs : List Byte) (i : Instr) (rest : List Request), 21 ≤ s.cfg.cap →
    s.requests = .environment (.receive bs) :: rest → decode bs = .ok (i, []) →
    step (s.withBytes []) = exec i { s.withBytes [] with requests := rest }

/-- R101 step 1: bytes that arrive are pushed and drained, and each frame emitted is executed in order. The model's
choices in it: requests stand in a queue (log 5), an emitted frame is run as its frame instruction (log 6), all at one
clock value (log 14, unsafe for this claim), and step 1 is one action (log 27). -/
def Obligations.StepOnReceivedBytesRunsTheEmittedFrames : Prop :=
  ∀ (s : State) (bs a : List Byte) (rest : List Request), 21 ≤ s.cfg.cap → bs.length ≤ s.cfg.cap →
    s.requests = .environment (.receive a) :: rest →
    ∃ (u : State) (fs : List Frame),
      execAll [.push a, .drain] { s.withBytes bs with requests := rest } = .next { u with response := .frames fs } ∧
      step (s.withBytes bs) = execAll (fs.map frameInstr) { u with response := .none }

/-- R101, R102: an iteration notes when it begins and asks for its eight steps in their fixed order, with the time
that passes before each of steps 2 to 8, before anything else that was asked. Step 3 retains the sample, enabled or
not; step 7 counts the loop and once per second takes the count as `loopRateHz` and starts again; step 8 idles up to
the target period if the iteration undershoots it and not at all otherwise; each changes nothing else. The model's
choices in it: requests in a queue (log 5), one action for each step (log 27), a clock that only `advanceClock` and
step 8 move (log 14), at least 1000 ms for once per second (log 15), counting before the snapshot and a free value for
a count above 65535 (log 16), a period in whole milliseconds (log 17). -/
def Obligations.IterationAsksForItsStepsInOrder : Prop :=
  (∀ (s : State) (inp : LoopInputs) (rest : List Request), 21 ≤ s.cfg.cap →
    s.requests = .environment (.iteration inp) :: rest →
    let wait (k : Nat) : Request := .environment (.advanceClock (inp.delays.getD k 0))
    step s =
      .next { s with
        env := { s.env with loop := { s.env.loop with iterationStart := s.env.loop.clock } }
        response := .none
        requests :=
          [ .environment (.receive inp.received), wait 0, .environment .checkTimeout,
            wait 1, .environment (.sampleAngle inp.angle), wait 2, .environment .actuate,
            wait 3, .environment .emitTelemetry, wait 4, .environment .emitHeartbeat,
            wait 5, .environment .countLoop, wait 6, .environment .pace ] ++ rest }) ∧
  ∀ (c : Config) (e : Env),
    (∀ raw : Word16, e.sampleAngle raw = { e with loop := { e.loop with angleRaw := raw } }) ∧
    (e.loop.clock - e.loop.lastSnapshot < 1000 →
      e.countLoop = { e with loop := { e.loop with loopCounter := e.loop.loopCounter + 1 } }) ∧
    (1000 ≤ e.loop.clock - e.loop.lastSnapshot →
      ∃ r : Word16, (e.loop.loopCounter + 1 < 65536 → r.toNat = e.loop.loopCounter + 1) ∧
        e.countLoop =
          { e with loop := { e.loop with loopRateHz := r, loopCounter := 0, lastSnapshot := e.loop.clock } }) ∧
    (e.loop.clock < e.loop.iterationStart + 1000 / c.controlLoopHz →
      e.pace c = { e with loop := { e.loop with clock := e.loop.iterationStart + 1000 / c.controlLoopHz } }) ∧
    (e.loop.iterationStart + 1000 / c.controlLoopHz ≤ e.loop.clock → e.pace c = e) ∧
    (∀ ms : Nat, e.advanceClock ms = { e with loop := { e.loop with clock := e.loop.clock + ms } })

/-- The invariant holds right after reset, for every legal configuration, and for the sample one. The actuator's relaxed
start is DEDUCED (log 12). -/
def Obligations.ResetMeetsTheInvariant : Prop :=
  (∀ c : Config, c.legal = true → (State.resetOf c).Inv) ∧ State.reset.Inv

/-- Every step keeps the invariant: BUF has a value exactly at `0..WR-1`, in canonical form, `WR ≤ CAP` (R11, R12, R74
(a)), `gain ≤ 100` (R92), a disabled device is not driven (R82, R99), the pulse width is in its range (R97), no fault code
but None and SerialTimeout (R36). -/
def Obligations.EveryStepKeepsTheInvariant : Prop :=
  ∀ s t : State, s.Inv → step s = .next t → t.Inv

/-- R28, R74 (e): from a state that meets the invariant no step faults: no index read is at or above WR, none written at or
above CAP. -/
def Obligations.NoStepFromALegalStateFaults : Prop :=
  ∀ (s : State) (f : Fault), s.Inv → step s ≠ .fault f

/-- R16, R5, R12: no step changes the parameters; under the invariant memory is in canonical form and WR fits its width. -/
def Obligations.ParametersAreFixedAndTheCursorFits : Prop :=
  ∀ s t : State, step s = .next t → t.cfg = s.cfg ∧ (s.Inv → s.buf.wf = true ∧ t.buf.wf = true ∧ t.wr < 2 ^ wrWidth t.cfg.cap)
end

