-- ==== Sys2Proof/Laws/State.lean ====
section
/-! SUPPORT. One lemma per field per update of the state and of the environment, each true by unfolding, so that no later
proof unfolds a record update. -/

namespace Sys2Proof.Machine

section StateUpdates
variable (s : State)

@[simp] theorem setWr_cfg (v : Nat) : (s.setWr v).cfg = s.cfg := rfl
@[simp] theorem setWr_buf (v : Nat) : (s.setWr v).buf = s.buf := rfl
@[simp] theorem setWr_wr (v : Nat) : (s.setWr v).wr = v := rfl
@[simp] theorem setWr_crc (v : Nat) : (s.setWr v).crc = s.crc := rfl
@[simp] theorem setWr_env (v : Nat) : (s.setWr v).env = s.env := rfl
@[simp] theorem setWr_response (v : Nat) : (s.setWr v).response = s.response := rfl
@[simp] theorem setWr_requests (v : Nat) : (s.setWr v).requests = s.requests := rfl

@[simp] theorem setCrc_cfg (v : Byte) : (s.setCrc v).cfg = s.cfg := rfl
@[simp] theorem setCrc_buf (v : Byte) : (s.setCrc v).buf = s.buf := rfl
@[simp] theorem setCrc_wr (v : Byte) : (s.setCrc v).wr = s.wr := rfl
@[simp] theorem setCrc_crc (v : Byte) : (s.setCrc v).crc = v := rfl
@[simp] theorem setCrc_env (v : Byte) : (s.setCrc v).env = s.env := rfl
@[simp] theorem setCrc_response (v : Byte) : (s.setCrc v).response = s.response := rfl
@[simp] theorem setCrc_requests (v : Byte) : (s.setCrc v).requests = s.requests := rfl

@[simp] theorem setBuf_cfg (m : Memory) : (s.setBuf m).cfg = s.cfg := rfl
@[simp] theorem setBuf_buf (m : Memory) : (s.setBuf m).buf = m := rfl
@[simp] theorem setBuf_wr (m : Memory) : (s.setBuf m).wr = s.wr := rfl
@[simp] theorem setBuf_crc (m : Memory) : (s.setBuf m).crc = s.crc := rfl
@[simp] theorem setBuf_env (m : Memory) : (s.setBuf m).env = s.env := rfl
@[simp] theorem setBuf_response (m : Memory) : (s.setBuf m).response = s.response := rfl
@[simp] theorem setBuf_requests (m : Memory) : (s.setBuf m).requests = s.requests := rfl

@[simp] theorem setEnv_cfg (e : Env) : (s.setEnv e).cfg = s.cfg := rfl
@[simp] theorem setEnv_buf (e : Env) : (s.setEnv e).buf = s.buf := rfl
@[simp] theorem setEnv_wr (e : Env) : (s.setEnv e).wr = s.wr := rfl
@[simp] theorem setEnv_crc (e : Env) : (s.setEnv e).crc = s.crc := rfl
@[simp] theorem setEnv_env (e : Env) : (s.setEnv e).env = e := rfl
@[simp] theorem setEnv_response (e : Env) : (s.setEnv e).response = s.response := rfl
@[simp] theorem setEnv_requests (e : Env) : (s.setEnv e).requests = s.requests := rfl

@[simp] theorem respond_cfg (r : Response) : (s.respond r).cfg = s.cfg := rfl
@[simp] theorem respond_buf (r : Response) : (s.respond r).buf = s.buf := rfl
@[simp] theorem respond_wr (r : Response) : (s.respond r).wr = s.wr := rfl
@[simp] theorem respond_crc (r : Response) : (s.respond r).crc = s.crc := rfl
@[simp] theorem respond_env (r : Response) : (s.respond r).env = s.env := rfl
@[simp] theorem respond_response (r : Response) : (s.respond r).response = r := rfl
@[simp] theorem respond_requests (r : Response) : (s.respond r).requests = s.requests := rfl

@[simp] theorem setRequests_cfg (rs : List Request) : (s.setRequests rs).cfg = s.cfg := rfl
@[simp] theorem setRequests_buf (rs : List Request) : (s.setRequests rs).buf = s.buf := rfl
@[simp] theorem setRequests_wr (rs : List Request) : (s.setRequests rs).wr = s.wr := rfl
@[simp] theorem setRequests_crc (rs : List Request) : (s.setRequests rs).crc = s.crc := rfl
@[simp] theorem setRequests_env (rs : List Request) : (s.setRequests rs).env = s.env := rfl
@[simp] theorem setRequests_response (rs : List Request) : (s.setRequests rs).response = s.response := rfl
@[simp] theorem setRequests_requests (rs : List Request) : (s.setRequests rs).requests = rs := rfl

@[simp] theorem withBytes_cfg (bs : List Byte) : (s.withBytes bs).cfg = s.cfg := rfl
@[simp] theorem withBytes_buf (bs : List Byte) : (s.withBytes bs).buf = Memory.ofBytes bs := rfl
@[simp] theorem withBytes_wr (bs : List Byte) : (s.withBytes bs).wr = bs.length := rfl
@[simp] theorem withBytes_crc (bs : List Byte) : (s.withBytes bs).crc = s.crc := rfl
@[simp] theorem withBytes_env (bs : List Byte) : (s.withBytes bs).env = s.env := rfl
@[simp] theorem withBytes_response (bs : List Byte) : (s.withBytes bs).response = s.response := rfl
@[simp] theorem withBytes_requests (bs : List Byte) : (s.withBytes bs).requests = s.requests := rfl
@[simp] theorem withBytes_withBytes (a b : List Byte) : (s.withBytes a).withBytes b = s.withBytes b := rfl

end StateUpdates

section EnvUpdates
variable (e : Env)

@[simp] theorem setDevice_device (d : DeviceState) : (e.setDevice d).device = d := rfl
@[simp] theorem setDevice_loop (d : DeviceState) : (e.setDevice d).loop = e.loop := rfl
@[simp] theorem setDevice_actuator (d : DeviceState) : (e.setDevice d).actuator = e.actuator := rfl
@[simp] theorem setDevice_tx (d : DeviceState) : (e.setDevice d).tx = e.tx := rfl

@[simp] theorem setLoop_device (l : LoopState) : (e.setLoop l).device = e.device := rfl
@[simp] theorem setLoop_loop (l : LoopState) : (e.setLoop l).loop = l := rfl
@[simp] theorem setLoop_actuator (l : LoopState) : (e.setLoop l).actuator = e.actuator := rfl
@[simp] theorem setLoop_tx (l : LoopState) : (e.setLoop l).tx = e.tx := rfl

@[simp] theorem setActuator_device (a : Actuator) : (e.setActuator a).device = e.device := rfl
@[simp] theorem setActuator_loop (a : Actuator) : (e.setActuator a).loop = e.loop := rfl
@[simp] theorem setActuator_actuator (a : Actuator) : (e.setActuator a).actuator = a := rfl
@[simp] theorem setActuator_tx (a : Actuator) : (e.setActuator a).tx = e.tx := rfl

@[simp] theorem transmit_device (bs : List Byte) : (e.transmit bs).device = e.device := rfl
@[simp] theorem transmit_loop (bs : List Byte) : (e.transmit bs).loop = e.loop := rfl
@[simp] theorem transmit_actuator (bs : List Byte) : (e.transmit bs).actuator = e.actuator := rfl
@[simp] theorem transmit_tx (bs : List Byte) : (e.transmit bs).tx = e.tx ++ bs := rfl

end EnvUpdates

section Outcomes

@[simp] theorem toResult_ok (s : State) : OrFault.toResult (.ok s) = .next s := rfl
@[simp] theorem toResult_error (f : Fault) : OrFault.toResult (.error f) = .fault f := rfl

end Outcomes

end Sys2Proof.Machine
end

