-- ==== Sys2Proof/Laws/Memory.lean ====
section
/-! SUPPORT. BUF: read after write, the canonical form kept by every memory operation, and what the operations do to the
memory that holds a byte sequence. -/

namespace Sys2Proof.Machine

namespace Memory

theorem read_write (m : Memory) (a k : Nat) (v : Byte) :
    (m.write a v).read k = if k = a then some v else m.read k := by
  induction m with
  | nil => simp [write, read, eq_comm]
  | cons c m ih =>
    obtain ⟨j, b⟩ := c
    by_cases h1 : j < a
    · by_cases h2 : j = k
      · subst h2
        simp [write, read, h1, show j ≠ a by omega]
      · simp [write, read, h1, h2, ih]
    · by_cases h3 : j = a
      · subst h3
        by_cases h2 : j = k
        · simp [write, read, h2]
        · simp [write, read, h2, Ne.symm h2]
      · by_cases h2 : a = k
        · subst h2
          simp [write, read, h1, h3]
        · simp [write, read, h1, h3, h2, Ne.symm h2]

theorem read_forgetFrom (m : Memory) (n k : Nat) :
    (m.forgetFrom n).read k = if k < n then m.read k else none := by
  induction m with
  | nil => simp [forgetFrom, read]
  | cons c m ih =>
    obtain ⟨j, b⟩ := c
    simp only [forgetFrom] at ih
    by_cases h1 : j < n
    · by_cases h2 : j = k
      · subst h2
        simp [forgetFrom, read, h1]
      · simp [forgetFrom, read, h1, h2, ih]
    · by_cases h2 : j = k
      · subst h2
        simp [forgetFrom, h1, ih]
      · simp [forgetFrom, read, h1, h2, ih]

theorem wf_cons (a : Host.Cell) (m : Memory) :
    wf (a :: m) = true ↔ (∀ c ∈ m.head?, a.1 < c.1) ∧ wf m = true := by
  cases m <;> simp [wf]

theorem head_write (m : Memory) (a : Nat) (v : Byte) :
    ∀ c ∈ (m.write a v).head?, c.1 = a ∨ ∃ d ∈ m.head?, c.1 = d.1 := by
  cases m with
  | nil => simp [write]
  | cons d m =>
    obtain ⟨j, b⟩ := d
    simp only [write]
    split
    · simp
    · split <;> simp

theorem write_wf (m : Memory) (a : Nat) (v : Byte) (h : m.wf = true) : (m.write a v).wf = true := by
  induction m with
  | nil => rfl
  | cons c m ih =>
    obtain ⟨j, b⟩ := c
    obtain ⟨h1, h2⟩ := (wf_cons _ _).1 h
    by_cases h3 : j < a
    · rw [write, if_pos h3, wf_cons]
      refine ⟨fun d hd => ?_, ih h2⟩
      rcases head_write m a v d hd with h4 | ⟨e, he, h4⟩
      · simpa [h4] using h3
      · simpa [h4] using h1 e he
    · by_cases h4 : j = a
      · subst h4
        rw [write, if_neg h3, if_pos rfl, wf_cons]
        exact ⟨h1, h2⟩
      · rw [write, if_neg h3, if_neg h4, wf_cons]
        refine ⟨?_, h⟩
        simp
        omega

theorem writeBytes_wf (v : List Byte) : ∀ (m : Memory) (a : Nat), m.wf = true → (m.writeBytes a v).wf = true := by
  induction v with
  | nil => intro m a h; exact h
  | cons b v ih => intro m a h; exact ih _ _ (write_wf m a b h)

theorem forgetFrom_head (m : Memory) (n x : Nat) (h : m.wf = true) (hx : ∀ c ∈ m.head?, x < c.1) :
    ∀ c ∈ (m.forgetFrom n).head?, x < c.1 := by
  induction m with
  | nil => simp [forgetFrom]
  | cons d m ih =>
    obtain ⟨h1, h2⟩ := (wf_cons _ _).1 h
    have hd : x < d.1 := by simpa using hx d
    by_cases h3 : d.1 < n
    · simpa [forgetFrom, h3] using hd
    · have h4 : forgetFrom (d :: m) n = forgetFrom m n := by simp [forgetFrom, h3]
      rw [h4]
      exact ih h2 fun c hc => lt_trans hd (h1 c hc)

theorem forgetFrom_wf (m : Memory) (n : Nat) (h : m.wf = true) : (m.forgetFrom n).wf = true := by
  induction m with
  | nil => rfl
  | cons d m ih =>
    obtain ⟨h1, h2⟩ := (wf_cons _ _).1 h
    by_cases h3 : d.1 < n
    · have h4 : forgetFrom (d :: m) n = d :: forgetFrom m n := by simp [forgetFrom, h3]
      rw [h4, wf_cons]
      exact ⟨forgetFrom_head m n d.1 h2 h1, ih h2⟩
    · have h4 : forgetFrom (d :: m) n = forgetFrom m n := by simp [forgetFrom, h3]
      rw [h4]
      exact ih h2

theorem forgetFrom_zero (m : Memory) : m.forgetFrom 0 = [] := by simp [forgetFrom]

/-! The memory that holds a byte sequence. -/

theorem ofBytesFrom_map_fst (bs : List Byte) : ∀ a, (ofBytesFrom a bs).map Prod.fst = List.range' a bs.length := by
  induction bs with
  | nil => intro a; rfl
  | cons b bs ih => intro a; simp [ofBytesFrom, ih, List.range'_succ]

theorem ofBytesFrom_map_snd (bs : List Byte) : ∀ a, (ofBytesFrom a bs).map Prod.snd = bs := by
  induction bs with
  | nil => intro a; rfl
  | cons b bs ih => intro a; simp [ofBytesFrom, ih]

theorem eq_ofBytesFrom (m : Memory) : ∀ a n, m.map Prod.fst = List.range' a n → m = ofBytesFrom a (m.map Prod.snd) := by
  induction m with
  | nil => intro a n _; rfl
  | cons c m ih =>
    intro a n h
    cases n with
    | zero => simp at h
    | succ n =>
      simp only [List.map_cons, List.range'_succ, List.cons.injEq] at h
      obtain ⟨rfl, h2⟩ := h
      simp only [List.map_cons, ofBytesFrom]
      rw [← ih _ n h2]

theorem ofBytesFrom_wf (bs : List Byte) : ∀ a, (ofBytesFrom a bs).wf = true := by
  induction bs with
  | nil => intro a; rfl
  | cons b bs ih =>
    intro a
    rw [ofBytesFrom, wf_cons]
    refine ⟨?_, ih _⟩
    cases bs <;> simp [ofBytesFrom]

theorem read_ofBytesFrom (bs : List Byte) : ∀ a k, (ofBytesFrom a bs).read k = if a ≤ k then bs[k - a]? else none := by
  induction bs with
  | nil => intro a k; simp [ofBytesFrom, read]
  | cons b bs ih =>
    intro a k
    rw [ofBytesFrom, read, ih]
    rcases lt_trichotomy k a with h | h | h
    · simp [show ¬ a = k by omega, show ¬ a ≤ k by omega, show ¬ a + 1 ≤ k by omega]
    · simp [h]
    · have : k - a = (k - (a + 1)) + 1 := by omega
      simp [show ¬ a = k by omega, show a ≤ k by omega, show a + 1 ≤ k by omega, this]

theorem read_ofBytes (bs : List Byte) (k : Nat) : (ofBytes bs).read k = bs[k]? := by
  simp [ofBytes, read_ofBytesFrom]

theorem readBytes_ofBytes (bs : List Byte) (n : Nat) :
    ∀ i, i + n ≤ bs.length → (ofBytes bs).readBytes i n = .ok ((bs.drop i).take n) := by
  induction n with
  | zero => intro i _; simp [readBytes]
  | succ n ih =>
    intro i h
    have hi : i < bs.length := by omega
    have hd : bs.drop i = bs[i] :: bs.drop (i + 1) := List.drop_eq_getElem_cons hi
    simp [readBytes, read_ofBytes, hi, ih (i + 1) (by omega)]
    rw [hd, List.take_succ_cons]

theorem write_ofBytesFrom (bs : List Byte) :
    ∀ (a i : Nat) (v : Byte), i ≤ bs.length →
      (ofBytesFrom a bs).write (a + i) v = ofBytesFrom a (bs.take i ++ v :: bs.drop (i + 1)) := by
  induction bs with
  | nil =>
    intro a i v h
    have : i = 0 := by simpa using h
    simp [this, ofBytesFrom, write]
  | cons b bs ih =>
    intro a i v h
    cases i with
    | zero => simp [ofBytesFrom, write]
    | succ i =>
      have h1 := ih (a + 1) i v (by simpa using h)
      rw [show a + 1 + i = a + (i + 1) by omega] at h1
      simp [ofBytesFrom, write, h1]

theorem writeBytes_ofBytes (v : List Byte) :
    ∀ (bs : List Byte) (i : Nat), i ≤ bs.length →
      (ofBytes bs).writeBytes i v = ofBytes (bs.take i ++ v ++ bs.drop (i + v.length)) := by
  induction v with
  | nil => intro bs i _; simp [writeBytes]
  | cons b v ih =>
    intro bs i h
    have h1 := write_ofBytesFrom bs 0 i b h
    rw [Nat.zero_add] at h1
    rw [writeBytes, ofBytes, h1, ← ofBytes, ih _ _ (by simp; omega)]
    congr 1
    have h2 : (bs.take i).length = i := by simp [h]
    rw [List.take_append, List.drop_append]
    simp only [h2, Nat.add_sub_cancel_left, List.take_succ_cons, List.take_zero]
    rw [List.take_of_length_le (by omega), List.drop_eq_nil_of_le (by omega),
      show i + 1 + v.length - i = v.length + 1 by omega]
    simp [List.drop_drop]
    congr 1
    omega

theorem forgetFrom_ofBytesFrom (bs : List Byte) :
    ∀ a n, (ofBytesFrom a bs).forgetFrom n = ofBytesFrom a (bs.take (n - a)) := by
  induction bs with
  | nil => intro a n; simp [ofBytesFrom, forgetFrom]
  | cons b bs ih =>
    intro a n
    have h1 := ih (a + 1) n
    simp only [forgetFrom] at h1
    by_cases h : a < n
    · have h2 : n - a = (n - (a + 1)) + 1 := by omega
      simp [ofBytesFrom, forgetFrom, h, h1, h2]
    · have h2 : n - (a + 1) = 0 := by omega
      have h3 : n - a = 0 := by omega
      simp [ofBytesFrom, forgetFrom, h, h1, h2, h3]

theorem forgetFrom_ofBytes (bs : List Byte) (n : Nat) : (ofBytes bs).forgetFrom n = ofBytes (bs.take n) := by
  simp [ofBytes, forgetFrom_ofBytesFrom]

end Memory

/-! MemRead and MemWrite (R7) on a state whose valid bytes are `bs`. -/

theorem memRead_withBytes (s : State) (bs : List Byte) (i n : Nat) (h : i + n ≤ bs.length) :
    (s.withBytes bs).memRead i n = .ok ((bs.drop i).take n) := by
  simp [State.memRead, h, Memory.readBytes_ofBytes _ _ _ h]

theorem memWrite_ok (s : State) (a : Nat) (v : List Byte) (h : a + v.length ≤ s.cfg.cap) :
    s.memWrite a v = .ok (s.setBuf (s.buf.writeBytes a v)) := by
  simp [State.memWrite, h]

theorem discard_eq (s : State) : s.discard = s.withBytes [] := by
  simp [State.discard, State.setBuf, State.setWr, State.withBytes, Memory.forgetFrom_zero, Memory.ofBytes,
    Memory.ofBytesFrom]

/-- The block's invariant says exactly that BUF holds `WR` bytes, at most `CAP` of them. -/
theorem blockOk_iff (s : State) : s.blockOk = true ↔ ∃ bs : List Byte, s = s.withBytes bs ∧ bs.length ≤ s.cfg.cap := by
  constructor
  · intro h
    simp only [State.blockOk, Bool.and_eq_true, decide_eq_true_eq] at h
    obtain ⟨h1, h2⟩ := h
    rw [List.range_eq_range'] at h1
    have h3 := Memory.eq_ofBytesFrom s.buf 0 s.wr h1
    have h4 : (s.buf.map Prod.snd).length = s.wr := by
      have := congrArg List.length h1
      simpa using this
    refine ⟨s.buf.map Prod.snd, ?_, by omega⟩
    rw [State.withBytes, Memory.ofBytes, ← h3, h4]
  · rintro ⟨bs, h1, h2⟩
    rw [h1]
    simp [State.blockOk, h2, Memory.ofBytes, Memory.ofBytesFrom_map_fst, List.range_eq_range']

end Sys2Proof.Machine
end

