-- ==== Sys2Proof/Laws/Encoding.lean ====
section
/-! SUPPORT. The encoding tables, and what the two decoders (the instruction decoder and DECODE, R55) do on a wire
frame. -/

namespace Sys2Proof

theorem Command.ofCode_code (c : Command) : Command.ofCode c.code = some c := by cases c <;> decide

theorem Command.ofCode_some {b : Byte} {c : Command} (h : Command.ofCode b = some c) : c.code = b := by
  unfold Command.ofCode at h
  repeat' split at h
  all_goals first | (cases h; done) | (obtain rfl := Option.some.inj h; exact Eq.symm ‹_›)

theorem lenByte_toNat {p : List Byte} (h : p.length ≤ maxPayload) : (lenByte p).toNat = p.length := by
  simp only [maxPayload] at h
  simp [lenByte]
  omega

theorem wireFrame_length (c : Byte) (p : List Byte) (k : Byte) : (wireFrame c p k).length = overhead + p.length := by
  simp [wireFrame, frameBody, overhead]
  omega

theorem beginsWithHeader_wireFrame (c : Byte) (p : List Byte) (k : Byte) (t : List Byte) :
    beginsWithHeader (wireFrame c p k ++ t) = true := by simp [wireFrame, beginsWithHeader]

/-- A sequence with the header begins `AA 55`. -/
theorem beginsWithHeader_iff (s : List Byte) : beginsWithHeader s = true ↔ ∃ r, s = sof0 :: sof1 :: r := by
  match s with
  | [] => simp [beginsWithHeader]
  | [_] => simp [beginsWithHeader]
  | a :: b :: r => simp [beginsWithHeader]

namespace Instr

theorem frameParts_ofFrame (c : Byte) (p : List Byte) (k : Byte) : (ofFrame c p k).frameParts = some (c, p, k) := by
  unfold ofFrame
  cases h : Command.ofCode c with
  | none => rfl
  | some d =>
    have := Command.ofCode_some h
    cases d <;> simp [frameParts, this]

theorem ofFrame_of_frameParts {i : Instr} {c : Byte} {p : List Byte} {k : Byte} (hs : i.shapeOk = true)
    (h : i.frameParts = some (c, p, k)) : ofFrame c p k = i := by
  cases i with
  | raw c' p' k' =>
    simp only [frameParts, Option.some.injEq, Prod.mk.injEq] at h
    obtain ⟨rfl, rfl, rfl⟩ := h
    simp only [shapeOk, Bool.and_eq_true, Option.isNone_iff_eq_none] at hs
    simp [ofFrame, hs.2]
  | setSteering | setGain | setEnable | telemetry | fault | heartbeat =>
    simp only [frameParts, Option.some.injEq, Prod.mk.injEq] at h
    obtain ⟨rfl, rfl, rfl⟩ := h
    simp [ofFrame, Command.ofCode_code]
  | _ => simp [frameParts] at h

theorem payload_le_of_shapeOk {i : Instr} {c : Byte} {p : List Byte} {k : Byte} (hs : i.shapeOk = true)
    (h : i.frameParts = some (c, p, k)) : p.length ≤ maxPayload := by
  cases i <;> simp_all [frameParts, shapeOk]

theorem shapeOk_ofFrame (c : Byte) (p : List Byte) (k : Byte) (h : p.length ≤ maxPayload) :
    (ofFrame c p k).shapeOk = true := by
  unfold ofFrame
  cases hc : Command.ofCode c with
  | none => simp [shapeOk, h, hc]
  | some d => cases d <;> simp [shapeOk, h]

end Instr

/-- The instruction decoder on a wire frame followed by anything. -/
theorem decode_wireFrame (c : Byte) (p : List Byte) (k : Byte) (t : List Byte) (h : p.length ≤ maxPayload) :
    decode (wireFrame c p k ++ t) = .ok (Instr.ofFrame c p k, t) := by
  have h1 := lenByte_toNat h
  simp [wireFrame, frameBody, decode, h1, Nat.not_lt.2 h]

/-- What the instruction decoder accepts is a wire frame followed by the rest. -/
theorem decode_ok {bs : List Byte} {i : Instr} {t : List Byte} (h : decode bs = .ok (i, t)) :
    ∃ c p k, p.length ≤ maxPayload ∧ i = Instr.ofFrame c p k ∧ bs = wireFrame c p k ++ t := by
  match bs with
  | [] => simp [decode] at h
  | [_] => simp [decode] at h
  | b0 :: b1 :: ah =>
    simp only [decode] at h
    split at h
    · rename_i hdr
      obtain ⟨rfl, rfl⟩ := hdr
      match ah with
      | [] => simp at h
      | [_] => simp at h
      | cmd :: len :: rest =>
        simp only at h
        split at h
        · simp at h
        · rename_i hlen
          split at h
          · rename_i crc tail hd
            simp only [Except.ok.injEq, Prod.mk.injEq] at h
            obtain ⟨rfl, rfl⟩ := h
            have hl : len.toNat < rest.length := by
              by_contra hc
              rw [List.drop_eq_nil_of_le (by omega)] at hd
              simp at hd
            have hp : (rest.take len.toNat).length = len.toNat := by simp; omega
            refine ⟨cmd, rest.take len.toNat, crc, by omega, rfl, ?_⟩
            have hr : rest = rest.take len.toNat ++ crc :: tail := by rw [← hd, List.take_append_drop]
            have hb : lenByte (rest.take len.toNat) = len := by simp [lenByte, hp]
            simp only [wireFrame, frameBody, hb]
            conv_lhs => rw [hr]
            simp
          · simp at h
    · simp at h

namespace Machine

/-- DECODE on a wire frame followed by anything (R59, R60): the checksum decides. -/
theorem decodeFrame_wireFrame (c : Byte) (p : List Byte) (k : Byte) (t : List Byte) (h : p.length ≤ maxPayload) :
    decodeFrame (wireFrame c p k ++ t) =
      if checksumMatches c p k then .frame ⟨c, p, k⟩ (overhead + p.length) else .invalid (overhead + p.length) := by
  have h1 := lenByte_toNat h
  simp only [wireFrame, frameBody, List.cons_append, List.append_assoc, decodeFrame, h1]
  rw [if_neg (by omega), if_neg (by simp [overhead]; omega)]
  simp only [List.take_left', checksumMatches, frameBody, beq_iff_eq]
  simp

/-- DECODE with fewer than 4 bytes (R56). -/
theorem decodeFrame_short (s : List Byte) (h : s.length < 4) : decodeFrame s = .needMoreData := by
  unfold decodeFrame
  split
  · simp at h
    omega
  · rfl

/-- DECODE with a LEN byte above 16 (R57). -/
theorem decodeFrame_badLength (a b c len : Byte) (r : List Byte) (h : maxPayload < len.toNat) :
    decodeFrame (a :: b :: c :: len :: r) = .badLength := by simp [decodeFrame, h]

/-- DECODE with a legal LEN and an incomplete frame (R58). -/
theorem decodeFrame_incomplete (a b c len : Byte) (r : List Byte) (h : len.toNat ≤ maxPayload)
    (hr : 4 + r.length < overhead + len.toNat) : decodeFrame (a :: b :: c :: len :: r) = .needMoreData := by
  simp only [overhead] at hr
  simp only [decodeFrame]
  rw [if_neg (by omega), if_pos (by simp [overhead]; omega)]

/-- Every sequence with the header falls under exactly one of DECODE's cases (R55, R61). -/
theorem header_cases (s : List Byte) (h : beginsWithHeader s = true) :
    (s.length < 4 ∧ decodeFrame s = .needMoreData) ∨
    (∃ c len r, s = sof0 :: sof1 :: c :: len :: r ∧ maxPayload < len.toNat ∧ decodeFrame s = .badLength) ∨
    (∃ c len r, s = sof0 :: sof1 :: c :: len :: r ∧ len.toNat ≤ maxPayload ∧ 4 + r.length < overhead + len.toNat ∧
      decodeFrame s = .needMoreData) ∨
    (∃ c p k t, s = wireFrame c p k ++ t ∧ p.length ≤ maxPayload) := by
  obtain ⟨r, rfl⟩ := (beginsWithHeader_iff s).1 h
  match r with
  | [] => exact .inl ⟨by simp, decodeFrame_short _ (by simp)⟩
  | [_] => exact .inl ⟨by simp, decodeFrame_short _ (by simp)⟩
  | c :: len :: r =>
    right
    by_cases h1 : maxPayload < len.toNat
    · exact .inl ⟨c, len, r, rfl, h1, decodeFrame_badLength _ _ _ _ _ h1⟩
    · right
      by_cases h2 : 4 + r.length < overhead + len.toNat
      · exact .inl ⟨c, len, r, rfl, by omega, h2, decodeFrame_incomplete _ _ _ _ _ (by omega) h2⟩
      · right
        simp only [overhead] at h2
        have hl : len.toNat < r.length := by omega
        have hp : (r.take len.toNat).length = len.toNat := by simp; omega
        refine ⟨c, r.take len.toNat, r[len.toNat], r.drop (len.toNat + 1), ?_, by omega⟩
        have hb : lenByte (r.take len.toNat) = len := by simp [lenByte, hp]
        simp only [wireFrame, frameBody, hb, List.cons_append, List.append_assoc, List.nil_append]
        rw [List.getElem_cons_drop, List.take_append_drop]

end Machine

end Sys2Proof
end

