-- ==== Sys2Proof/Laws/Reassembler.lean ====
section
/-! SUPPORT. PUSH and DRAIN (R65 to R75): what one turn of the scan can do, the scan as an equation on the bytes that
remain, and the two operations on a state whose valid bytes are `bs`. -/

namespace Sys2Proof.Machine

/-! One turn of the scan. -/

/-- Everything one turn of DRAIN's loop can do (R68 to R72). -/
theorem scanTurn_cases (d : List Byte) :
    (d.length < 2 ∧ scanTurn d = .stop none) ∨
    (2 ≤ d.length ∧ beginsWithHeader d = false ∧ scanTurn d = .move .headerMiss 1) ∨
    (beginsWithHeader d = true ∧ d.length < 4 ∧ scanTurn d = .stop (some .needMoreData)) ∨
    (∃ c len r, d = sof0 :: sof1 :: c :: len :: r ∧ maxPayload < len.toNat ∧ scanTurn d = .move .badLength 1) ∨
    (∃ c len r, d = sof0 :: sof1 :: c :: len :: r ∧ len.toNat ≤ maxPayload ∧ 4 + r.length < overhead + len.toNat ∧
      scanTurn d = .stop (some .needMoreData)) ∨
    (∃ c p k t, d = wireFrame c p k ++ t ∧ p.length ≤ maxPayload ∧ checksumMatches c p k = true ∧
      scanTurn d = .emit ⟨c, p, k⟩ (overhead + p.length)) ∨
    (∃ c p k t, d = wireFrame c p k ++ t ∧ p.length ≤ maxPayload ∧ checksumMatches c p k = false ∧
      scanTurn d = .move (.invalid (overhead + p.length)) (overhead + p.length)) := by
  by_cases h2 : d.length < 2
  · exact .inl ⟨h2, by simp [scanTurn, h2]⟩
  right
  by_cases hh : beginsWithHeader d = true
  · right
    have ht : ∀ r, decodeFrame d = r → scanTurn d = .ofDecode r := by
      intro r hr
      simp [scanTurn, h2, hh, hr]
    rcases header_cases d hh with ⟨h4, hd⟩ | ⟨c, len, r, he, hl, hd⟩ | ⟨c, len, r, he, hl, hr, hd⟩ |
      ⟨c, p, k, t, he, hp⟩
    · exact .inl ⟨hh, h4, ht _ hd⟩
    · exact .inr (.inl ⟨c, len, r, he, hl, ht _ hd⟩)
    · exact .inr (.inr (.inl ⟨c, len, r, he, hl, hr, ht _ hd⟩))
    · have hd : decodeFrame d = _ := he ▸ decodeFrame_wireFrame c p k t hp
      cases hm : checksumMatches c p k with
      | true =>
        rw [hm, if_pos rfl] at hd
        exact .inr (.inr (.inr (.inl ⟨c, p, k, t, he, hp, hm, ht _ hd⟩)))
      | false =>
        rw [hm, if_neg (by simp)] at hd
        exact .inr (.inr (.inr (.inr ⟨c, p, k, t, he, hp, hm, ht _ hd⟩)))
  · have hf : beginsWithHeader d = false := by simpa using hh
    exact .inl ⟨by omega, hf, by simp [scanTurn, h2, hf]; rfl⟩

/-- A turn that moves on or emits raises POS by at least 1 and stays inside the data (R74 (b), (c)). -/
theorem scanTurn_advance (d : List Byte) :
    (∀ e n, scanTurn d = .move e n → 1 ≤ n ∧ n ≤ d.length) ∧
    (∀ f n, scanTurn d = .emit f n → 1 ≤ n ∧ n ≤ d.length) := by
  rcases scanTurn_cases d with ⟨_, h⟩ | ⟨h2, _, h⟩ | ⟨_, _, h⟩ | ⟨c, len, r, rfl, _, h⟩ | ⟨_, _, _, _, _, _, h⟩ |
    ⟨c, p, k, t, rfl, _, _, h⟩ | ⟨c, p, k, t, rfl, _, _, h⟩ <;> rw [h] <;>
    refine ⟨fun e n he => ?_, fun f n he => ?_⟩ <;> cases he <;>
    simp [wireFrame_length, overhead] <;> omega

/-- Bytes that arrive later never change a turn that did not stop (R61, R68). -/
theorem scanTurn_append (d t : List Byte) (h : ∀ e, scanTurn d ≠ .stop e) : scanTurn (d ++ t) = scanTurn d := by
  rcases scanTurn_cases d with ⟨_, h1⟩ | ⟨h2, hh, h1⟩ | ⟨_, _, h1⟩ | ⟨c, len, r, rfl, hl, h1⟩ | ⟨_, _, _, _, _, _, h1⟩ |
    ⟨c, p, k, t', rfl, hp, hm, h1⟩ | ⟨c, p, k, t', rfl, hp, hm, h1⟩
  · exact absurd h1 (h _)
  · rw [h1]
    have hh' : beginsWithHeader (d ++ t) = false := by
      match d with
      | [] => simp at h2
      | [_] => simp at h2
      | a :: b :: r => simpa [beginsWithHeader] using hh
    simp [scanTurn, hh', show ¬ d.length + t.length < 2 by omega]
    rfl
  · exact absurd h1 (h _)
  · rw [h1]
    have hd := decodeFrame_badLength sof0 sof1 c len (r ++ t) hl
    simp [scanTurn, beginsWithHeader, hd]
    rfl
  · exact absurd h1 (h _)
  · have hd := decodeFrame_wireFrame c p k (t' ++ t) hp
    have hb := beginsWithHeader_wireFrame c p k (t' ++ t)
    rw [h1]
    simp only [List.append_assoc]
    rw [hm, if_pos rfl] at hd
    simp only [scanTurn, hb, hd, List.length_append, wireFrame_length, overhead]
    rw [if_neg (by omega), if_pos trivial]
    rfl
  · have hd := decodeFrame_wireFrame c p k (t' ++ t) hp
    have hb := beginsWithHeader_wireFrame c p k (t' ++ t)
    rw [h1]
    simp only [List.append_assoc]
    rw [hm, if_neg (by simp)] at hd
    simp only [scanTurn, hb, hd, List.length_append, wireFrame_length, overhead]
    rw [if_neg (by omega), if_pos trivial]
    rfl

/-! The scan. -/

/-- The loop from POS is the loop on the bytes from POS on, its end moved by POS. -/
theorem scanLoop_shift (turns : Nat) : ∀ (data : List Byte) (pos : Nat),
    scanLoop data turns pos =
      let r := scanLoop (data.drop pos) turns 0
      ⟨pos + r.pos, r.frames, r.events⟩ := by
  induction turns with
  | zero => intro data pos; rfl
  | succ k ih =>
    intro data pos
    simp only [scanLoop, List.drop_zero]
    cases scanTurn (data.drop pos) with
    | stop e => rfl
    | move e n => simp only [Nat.zero_add]; rw [ih data (pos + n), ih (data.drop pos) n]; simp [List.drop_drop, Nat.add_assoc]
    | emit f n => simp only [Nat.zero_add]; rw [ih data (pos + n), ih (data.drop pos) n]; simp [List.drop_drop, Nat.add_assoc]

/-- Turns beyond the length of the data change nothing (R74 (c)). -/
theorem scanLoop_turns (turns : Nat) : ∀ (data : List Byte), data.length ≤ turns →
    scanLoop data turns 0 = scan data := by
  induction turns using Nat.strong_induction_on with
  | _ turns ih =>
    intro data h
    unfold scan
    cases turns with
    | zero =>
      have : data = [] := by simpa using h
      subst this
      rfl
    | succ k =>
      cases hl : data.length with
      | zero =>
        have : data = [] := by simpa using hl
        subst this
        rfl
      | succ m =>
        simp only [scanLoop, List.drop_zero, Nat.zero_add]
        have ha := scanTurn_advance data
        cases ht : scanTurn data with
        | stop e => rfl
        | move e n =>
          have hn := ha.1 e n ht
          simp only
          rw [scanLoop_shift k, scanLoop_shift m, ih k (by omega) _ (by simp; omega), ih m (by omega) _ (by simp; omega)]
        | emit f n =>
          have hn := ha.2 f n ht
          simp only
          rw [scanLoop_shift k, scanLoop_shift m, ih k (by omega) _ (by simp; omega), ih m (by omega) _ (by simp; omega)]

theorem scan_of_stop {d : List Byte} {e : Option Event} (h : scanTurn d = .stop e) : scan d = ⟨0, [], e.toList⟩ := by
  unfold scan
  cases hl : d.length with
  | zero =>
    have : d = [] := by simpa using hl
    subst this
    have he : e = none := by
      have h0 : scanTurn [] = .stop none := rfl
      rw [h0] at h
      cases h
      rfl
    simp [scanLoop, he]
  | succ k => simp [scanLoop, h]

theorem scan_of_move {d : List Byte} {e : Event} {n : Nat} (h : scanTurn d = .move e n) :
    scan d = ⟨n + (scan (d.drop n)).pos, (scan (d.drop n)).frames, e :: (scan (d.drop n)).events⟩ := by
  have hn := (scanTurn_advance d).1 e n h
  rw [scan]
  obtain ⟨k, hk⟩ : ∃ k, d.length = k + 1 := ⟨d.length - 1, by omega⟩
  rw [hk]
  simp only [scanLoop, List.drop_zero, h, Nat.zero_add]
  rw [scanLoop_shift, scanLoop_turns k _ (by simp; omega)]

theorem scan_of_emit {d : List Byte} {f : Frame} {n : Nat} (h : scanTurn d = .emit f n) :
    scan d = ⟨n + (scan (d.drop n)).pos, f :: (scan (d.drop n)).frames, (scan (d.drop n)).events⟩ := by
  have hn := (scanTurn_advance d).2 f n h
  rw [scan]
  obtain ⟨k, hk⟩ : ∃ k, d.length = k + 1 := ⟨d.length - 1, by omega⟩
  rw [hk]
  simp only [scanLoop, List.drop_zero, h, Nat.zero_add]
  rw [scanLoop_shift, scanLoop_turns k _ (by simp; omega)]

/-- Induction along a scan: at a stop, and from the bytes a turn leaves to the bytes it saw. -/
theorem scan_induction {P : List Byte → Prop} (stop : ∀ d e, scanTurn d = .stop e → P d)
    (move : ∀ d e n, scanTurn d = .move e n → P (d.drop n) → P d)
    (emit : ∀ d f n, scanTurn d = .emit f n → P (d.drop n) → P d) (d : List Byte) : P d := by
  induction h : d.length using Nat.strong_induction_on generalizing d with
  | _ m ih =>
    have ha := scanTurn_advance d
    cases ht : scanTurn d with
    | stop e => exact stop d e ht
    | move e n =>
      have hn := ha.1 e n ht
      exact move d e n ht (ih (d.drop n).length (by simp; omega) _ rfl)
    | emit f n =>
      have hn := ha.2 f n ht
      exact emit d f n ht (ih (d.drop n).length (by simp; omega) _ rfl)

theorem scan_pos_le (d : List Byte) : (scan d).pos ≤ d.length := by
  induction d using scan_induction with
  | stop d e h => simp [scan_of_stop h]
  | move d e n h ih =>
    have := (scanTurn_advance d).1 e n h
    simp only [scan_of_move h, List.length_drop] at *
    omega
  | emit d f n h ih =>
    have := (scanTurn_advance d).2 f n h
    simp only [scan_of_emit h, List.length_drop] at *
    omega

/-- Where a scan ends, a turn stops: the scan's end is a stop of R68 or R72. -/
theorem scan_stops (d : List Byte) : ∃ e, scanTurn (d.drop (scan d).pos) = .stop e := by
  induction d using scan_induction with
  | stop d e h => exact ⟨e, by simpa [scan_of_stop h] using h⟩
  | move d e n h ih => simpa [scan_of_move h, List.drop_drop] using ih
  | emit d f n h ih => simpa [scan_of_emit h, List.drop_drop] using ih

/-- A scan of bytes that go on is the scan of the first part, then the scan of what it left with the rest behind it. -/
theorem scan_append (a b : List Byte) :
    (scan (a ++ b)).frames = (scan a).frames ++ (scan (a.drop (scan a).pos ++ b)).frames ∧
    (scan (a ++ b)).pos = (scan a).pos + (scan (a.drop (scan a).pos ++ b)).pos := by
  induction a using scan_induction with
  | stop d e h => simp [scan_of_stop h]
  | move d e n h ih =>
    have hn := (scanTurn_advance d).1 e n h
    have h2 := scanTurn_append d b (by simp [h])
    rw [h] at h2
    have h3 : (d ++ b).drop n = d.drop n ++ b := List.drop_append_of_le_length (by omega)
    simp only [scan_of_move h2, scan_of_move h, h3, ih.1, ih.2, List.drop_drop]
    exact ⟨trivial, by omega⟩
  | emit d f n h ih =>
    have hn := (scanTurn_advance d).2 f n h
    have h2 := scanTurn_append d b (by simp [h])
    rw [h] at h2
    have h3 : (d ++ b).drop n = d.drop n ++ b := List.drop_append_of_le_length (by omega)
    simp only [scan_of_emit h2, scan_of_emit h, h3, ih.1, ih.2, List.drop_drop]
    exact ⟨by simp, by omega⟩

/-! DRAIN. -/

/-- DRAIN on a state whose valid bytes are `bs` (R67, R73): the frames of the scan; the bytes from POS on stay. -/
theorem drainFrames_withBytes (s : State) (bs : List Byte) (h : bs.length ≤ s.cfg.cap) :
    drainFrames (s.withBytes bs) = .ok (s.withBytes (bs.drop (scan bs).pos), (scan bs).frames) := by
  have hp := scan_pos_le bs
  have hr : (s.withBytes bs).memRead 0 (s.withBytes bs).wr = .ok bs := by
    rw [withBytes_wr, memRead_withBytes _ _ _ _ (by simp)]
    simp
  simp only [drainFrames, hr, compact]
  rw [memWrite_ok _ _ _ (by simp; omega)]
  simp only [withBytes_buf, setBuf_buf, withBytes_wr]
  rw [Memory.writeBytes_ofBytes _ _ _ (by simp), Memory.forgetFrom_ofBytes]
  simp [State.withBytes, State.setBuf, State.setWr]

/-! PUSH. -/

/-- One byte stored (R65, R66 (c)): a full buffer starts again with it. -/
theorem storeByte_withBytes (s : State) (bs : List Byte) (b : Byte) (hc : 0 < s.cfg.cap) (h : bs.length ≤ s.cfg.cap) :
    storeByte (s.withBytes bs) b = .ok (s.withBytes (if bs.length = s.cfg.cap then [b] else bs ++ [b])) := by
  have key : ∀ xs : List Byte, xs.length < s.cfg.cap →
      appendByte (s.withBytes xs) b = .ok (s.withBytes (xs ++ [b])) := by
    intro xs hx
    rw [appendByte, memWrite_ok _ _ _ (by simp; omega), Except.map]
    simp only [withBytes_buf, withBytes_wr]
    rw [Memory.writeBytes_ofBytes _ _ _ (by simp), List.drop_eq_nil_of_le (by simp)]
    simp [State.withBytes, State.setBuf, State.setWr]
  by_cases hf : bs.length = s.cfg.cap
  · simpa [storeByte, hf, discard_eq] using key [] (by simpa using hc)
  · simpa [storeByte, hf] using key bs (by omega)

/-- What stays of a byte sequence that fills a buffer of `cap` bytes again and again: all of it if it fits, else its last
`((n - 1) mod cap) + 1` bytes (R66 (b)). -/
def keepLast (cap : Nat) (l : List Byte) : List Byte := l.drop (l.length - ((l.length - 1) % cap + 1))

theorem keepLast_of_le (cap : Nat) (l : List Byte) (h : l.length ≤ cap) : keepLast cap l = l := by
  unfold keepLast
  rcases Nat.eq_zero_or_pos l.length with h0 | h0
  · simp [List.length_eq_zero_iff.1 h0]
  · rw [Nat.mod_eq_of_lt (by omega), show l.length - (l.length - 1 + 1) = 0 by omega, List.drop_zero]

theorem keepLast_drop_cap (cap : Nat) (pre l : List Byte) (hp : pre.length = cap) (hl : 0 < l.length) :
    keepLast cap (pre ++ l) = keepLast cap l := by
  unfold keepLast
  have hm : (pre.length + l.length - 1) % cap = (l.length - 1) % cap := by
    rw [show pre.length + l.length - 1 = (l.length - 1) + cap by omega, Nat.add_mod_right]
  have hle : (l.length - 1) % cap ≤ l.length - 1 := Nat.mod_le _ _
  rw [List.length_append, hm, List.drop_append]
  rw [List.drop_eq_nil_of_le (by omega), List.nil_append]
  congr 1
  omega

theorem storeBytes_withBytes (s : State) (hc : 0 < s.cfg.cap) (b : List Byte) :
    ∀ bs : List Byte, bs.length ≤ s.cfg.cap →
      storeBytes (s.withBytes bs) b = .ok (s.withBytes (keepLast s.cfg.cap (bs ++ b))) := by
  induction b with
  | nil => intro bs h; simp [storeBytes, keepLast_of_le _ _ h]
  | cons x b ih =>
    intro bs h
    rw [storeBytes, storeByte_withBytes s bs x hc h]
    by_cases hf : bs.length = s.cfg.cap
    · simp only [hf, if_true]
      rw [ih [x] (by simp; omega), keepLast_drop_cap _ bs (x :: b) hf (by simp)]
      simp
    · simp only [hf, if_false]
      rw [ih (bs ++ [x]) (by simp; omega)]
      simp

/-- PUSH on a state whose valid bytes are `bs` (R65, R66): appended if they fit; else what fits of the new bytes alone. -/
theorem pushBytes_withBytes (s : State) (bs b : List Byte) (hc : 0 < s.cfg.cap) (h : bs.length ≤ s.cfg.cap) :
    pushBytes (s.withBytes bs) b =
      .ok (s.withBytes (if bs.length + b.length ≤ s.cfg.cap then bs ++ b else keepLast s.cfg.cap b)) := by
  unfold pushBytes
  by_cases hf : bs.length + b.length ≤ s.cfg.cap
  · rw [if_neg (by simp; omega), if_pos hf, storeBytes_withBytes s hc b bs h, keepLast_of_le _ _ (by simpa using hf)]
  · rw [if_pos (by simp; omega), if_neg hf, discard_eq, withBytes_withBytes, storeBytes_withBytes s hc b [] (by simp),
      List.nil_append]

/-! The two instructions. -/

theorem execPush_withBytes (s : State) (bs b : List Byte) (hc : 0 < s.cfg.cap) (h : bs.length ≤ s.cfg.cap) :
    exec (.push b) (s.withBytes bs) =
      .next ((s.withBytes (if bs.length + b.length ≤ s.cfg.cap then bs ++ b else keepLast s.cfg.cap b)).respond .none) := by
  simp only [exec, execPush, pushBytes_withBytes s bs b hc h, Except.map, toResult_ok]

theorem execDrain_withBytes (s : State) (bs : List Byte) (h : bs.length ≤ s.cfg.cap) :
    exec .drain (s.withBytes bs) =
      .next ((s.withBytes (bs.drop (scan bs).pos)).respond (.frames (scan bs).frames)) := by
  simp only [exec, execDrain, drainFrames_withBytes s bs h, Except.map, toResult_ok]

end Sys2Proof.Machine
end

