-- ==== Sys2Proof/Laws/Crc.lean ====
section
/-! SUPPORT. The CRC step: it sees only `c ^ b`, it is linear and one-to-one, and sequences are folded through it. -/

namespace Sys2Proof

theorem crcShift_eq (r : Byte) : crcShift r = (r <<< 1) ^^^ (if r.msb then crcPoly else 0) := by
  unfold crcShift
  split <;> simp

theorem crcShift_xor (x y : Byte) : crcShift (x ^^^ y) = crcShift x ^^^ crcShift y := by
  rw [crcShift_eq, crcShift_eq, crcShift_eq, BitVec.shiftLeft_xor_distrib, BitVec.msb_xor]
  have h : ∀ a b p : Byte, (a ^^^ p) ^^^ (b ^^^ p) = a ^^^ b := by
    intro a b p
    rw [BitVec.xor_comm b p, BitVec.xor_assoc, ← BitVec.xor_assoc p, BitVec.xor_self, BitVec.zero_xor]
  cases x.msb <;> cases y.msb
  · simp
  · simp [BitVec.xor_assoc]
  · simp only [Bool.true_xor, Bool.not_false, if_true, Bool.false_eq_true, if_false]
    ac_rfl
  · simp [h]

theorem crcShifts_xor (n : Nat) : ∀ x y : Byte, crcShifts n (x ^^^ y) = crcShifts n x ^^^ crcShifts n y := by
  induction n with
  | zero => intro x y; rfl
  | succ n ih => intro x y; rw [crcShifts, crcShift_xor, ih]; rfl

/-- The step sees only `c ^ b` (R40). -/
theorem crcStep_eq (c b : Byte) : crcStep c b = crcStep 0 (c ^^^ b) := by simp [crcStep]

/-- The step is linear (R46 (b)). -/
theorem crcStep_xor (c d x y : Byte) : crcStep (c ^^^ d) (x ^^^ y) = crcStep c x ^^^ crcStep d y := by
  have h : c ^^^ d ^^^ (x ^^^ y) = (c ^^^ x) ^^^ (d ^^^ y) := by
    rw [BitVec.xor_assoc, BitVec.xor_assoc, ← BitVec.xor_assoc d, BitVec.xor_comm d x, BitVec.xor_assoc x]
  simp only [crcStep, h, crcShifts_xor]

theorem crcStep_zero_eq_zero : ∀ x : Byte, crcStep 0 x = 0 → x = 0 := by decide +kernel

/-- The step is one-to-one in the register (R46 (c)). -/
theorem crcStep_injective {c d b : Byte} (h : crcStep c b = crcStep d b) : c = d := by
  have h1 : crcStep (c ^^^ d) (b ^^^ b) = 0#8 := by rw [crcStep_xor, h, BitVec.xor_self]
  rw [BitVec.xor_self] at h1
  rw [crcStep_eq, BitVec.xor_zero] at h1
  exact BitVec.xor_eq_zero_iff.1 (crcStep_zero_eq_zero _ h1)

theorem crc8_append (s t : List Byte) : crc8 (s ++ t) = t.foldl crcStep (crc8 s) := by simp [crc8]

end Sys2Proof
end

