-- ==== Sys2Proof/Laws/Device.lean ====
section
/-! SUPPORT. Frames at the device (R80 to R86, R94): every frame instruction is `receiveFrame`; which frames pass; what
applying a frame keeps. The timeout as one equation per case. -/

namespace Sys2Proof.Machine

/-- Every frame instruction is the reception of its wire frame. -/
theorem exec_frame {i : Instr} {c k : Byte} {p : List Byte} (h : i.frameParts = some (c, p, k)) (s : State) :
    exec i s = receiveFrame c p k s := by
  cases i <;> simp only [Instr.frameParts, Option.some.injEq, Prod.mk.injEq, reduceCtorEq] at h <;>
    obtain ⟨rfl, rfl, rfl⟩ := h <;> rfl

theorem exec_frameInstr (f : Frame) (s : State) :
    exec (frameInstr f) s = receiveFrame f.command f.payload f.checksum s := by
  rw [frameInstr, exec_frame (Instr.frameParts_ofFrame f.command f.payload f.checksum)]

/-- A frame with the CRC of its body and `LEN ≤ 16` passes the parser (R57, R59). -/
theorem framePasses_crc8 (c : Byte) (p : List Byte) (h : p.length ≤ maxPayload) :
    framePasses c p (crc8 (c :: lenByte p :: p)) = true := by
  simp [framePasses, checksumMatches, frameBody, h]

/-- A frame that passes is applied to the environment and nothing else changes (R87, R94). -/
theorem receiveFrame_of_passes {c k : Byte} {p : List Byte} (h : framePasses c p k = true) (s : State) :
    receiveFrame c p k s = .next ((s.setEnv (s.env.applyCommand c p)).respond .none) := by
  rw [receiveFrame, if_pos h]

/-- A frame that does not pass changes nothing (R94, R104). -/
theorem receiveFrame_of_dropped {c k : Byte} {p : List Byte} (h : framePasses c p k = false) (s : State) :
    receiveFrame c p k s = .next (s.respond .none) := by
  rw [receiveFrame, if_neg (by simp [h])]

/-- Every frame a scan emits passes (R70). -/
theorem framePasses_of_scan (d : List Byte) :
    ∀ f ∈ (scan d).frames, framePasses f.command f.payload f.checksum = true := by
  induction d using scan_induction with
  | stop d e h => simp [scan_of_stop h]
  | move d e n h ih => simpa [scan_of_move h] using ih
  | emit d f n h ih =>
    rw [scan_of_emit h]
    simp only [List.mem_cons]
    rintro g (rfl | hg)
    · rcases scanTurn_cases d with ⟨_, h1⟩ | ⟨_, _, h1⟩ | ⟨_, _, h1⟩ | ⟨_, _, _, _, _, h1⟩ | ⟨_, _, _, _, _, _, h1⟩ |
        ⟨c, p, k, _, rfl, hp, hm, h1⟩ | ⟨_, _, _, _, _, _, _, h1⟩ <;> rw [h1] at h <;> cases h
      simp [framePasses, hp, hm]
    · exact ih g hg

/-- What a command never changes: the clock and the rest of the loop state, the bytes sent, the fault code (R82, N20). -/
theorem applyCommand_frame (e : Env) (c : Byte) (p : List Byte) :
    (e.applyCommand c p).loop = e.loop ∧ (e.applyCommand c p).tx = e.tx ∧
      (e.applyCommand c p).device.faultCode = e.device.faultCode := by
  unfold Env.applyCommand
  cases Command.ofCode c with
  | none => exact ⟨rfl, rfl, rfl⟩
  | some d =>
    cases d with
    | setSteering => simp only [Env.steer]; split <;> exact ⟨rfl, rfl, rfl⟩
    | setGain => simp only [Env.changeGain]; split <;> exact ⟨rfl, rfl, rfl⟩
    | setEnable =>
      simp only [Env.changeEnable]
      split
      · split <;> exact ⟨rfl, rfl, rfl⟩
      · exact ⟨rfl, rfl, rfl⟩
    | _ => exact ⟨rfl, rfl, rfl⟩

theorem clampGain_le (g : Byte) : (clampGain g).toNat ≤ 100 := by
  unfold clampGain
  split
  · assumption
  · decide

/-- The environment's invariant, clause by clause. -/
theorem ok_iff (c : Config) (e : Env) : e.ok c = true ↔
    e.device.gain.toNat ≤ 100 ∧
    (∀ us, e.actuator = .driven us → e.device.enabled = true ∧ c.servoMinUs ≤ us ∧ us ≤ c.servoMaxUs) ∧
    (e.device.faultCode = .none ∨ e.device.faultCode = .serialTimeout) := by
  unfold Env.ok
  simp only [Bool.and_eq_true, decide_eq_true_eq, Bool.or_eq_true, beq_iff_eq, and_assoc]
  cases e.actuator <;> simp [and_assoc]

/-- Applying a frame keeps the environment's invariant (R81, R82, R92). -/
theorem ok_applyCommand {c : Config} {e : Env} (h : e.ok c = true) (cmd : Byte) (p : List Byte) :
    (e.applyCommand cmd p).ok c = true := by
  rw [ok_iff] at h ⊢
  obtain ⟨h1, h2, h3⟩ := h
  unfold Env.applyCommand
  cases Command.ofCode cmd with
  | none => exact ⟨h1, h2, h3⟩
  | some d =>
    cases d with
    | setSteering => simp only [Env.steer]; split <;> exact ⟨h1, h2, h3⟩
    | setGain =>
      simp only [Env.changeGain]
      split
      · exact ⟨clampGain_le _, h2, h3⟩
      · exact ⟨h1, h2, h3⟩
    | setEnable =>
      simp only [Env.changeEnable]
      split
      · split
        · exact ⟨h1, fun us h => by simp at h, h3⟩
        · exact ⟨h1, fun us h => ⟨rfl, (h2 us h).2⟩, h3⟩
      · exact ⟨h1, h2, h3⟩
    | _ => exact ⟨h1, h2, h3⟩

theorem ok_applyFrames {c : Config} (fs : List Frame) :
    ∀ {e : Env}, e.ok c = true → (fs.foldl Env.applyFrame e).ok c = true := by
  induction fs with
  | nil => intro e h; exact h
  | cons f fs ih => intro e h; exact ih (ok_applyCommand h _ _)

/-- The pulse width always lies in the range (R96). -/
theorem computeActuatorMicroseconds_range (c : Config) (d : DeviceState) (h : c.servoMinUs ≤ c.servoMaxUs) :
    c.servoMinUs ≤ computeActuatorMicroseconds c d ∧ computeActuatorMicroseconds c d ≤ c.servoMaxUs := by
  simp only [computeActuatorMicroseconds, clampPulse]
  omega

end Sys2Proof.Machine
end

