-- ==== Sys2Proof/Laws/Step.lean ====
section
/-! SUPPORT. What PUSH, DRAIN and an arrival of bytes keep and when they complete; one step, by what is asked first. -/

namespace Sys2Proof.Machine

/-- Two states agree outside BUF and WR. -/
theorem memWrite_same {s t : State} {a : Nat} {v : List Byte} (h : s.memWrite a v = .ok t) :
    t.env = s.env ∧ t.cfg = s.cfg ∧ t.requests = s.requests ∧ t.crc = s.crc := by
  unfold State.memWrite at h
  split at h
  · cases h
    exact ⟨rfl, rfl, rfl, rfl⟩
  · cases h

theorem storeByte_same {s t : State} {b : Byte} (h : storeByte s b = .ok t) :
    t.env = s.env ∧ t.cfg = s.cfg ∧ t.requests = s.requests ∧ t.crc = s.crc := by
  unfold storeByte appendByte at h
  have hd : (if s.wr = s.cfg.cap then s.discard else s).env = s.env ∧
      (if s.wr = s.cfg.cap then s.discard else s).cfg = s.cfg ∧
      (if s.wr = s.cfg.cap then s.discard else s).requests = s.requests ∧
      (if s.wr = s.cfg.cap then s.discard else s).crc = s.crc := by split <;> exact ⟨rfl, rfl, rfl, rfl⟩
  generalize (if s.wr = s.cfg.cap then s.discard else s) = s0 at h hd
  cases hm : s0.memWrite s0.wr [b] with
  | error f => rw [hm] at h; cases h
  | ok s1 =>
    rw [hm] at h
    cases h
    obtain ⟨a1, a2, a3, a4⟩ := memWrite_same hm
    obtain ⟨b1, b2, b3, b4⟩ := hd
    exact ⟨a1.trans b1, a2.trans b2, a3.trans b3, a4.trans b4⟩

theorem storeBytes_same (b : List Byte) : ∀ {s t : State}, storeBytes s b = .ok t →
    t.env = s.env ∧ t.cfg = s.cfg ∧ t.requests = s.requests ∧ t.crc = s.crc := by
  induction b with
  | nil => intro s t h; cases h; exact ⟨rfl, rfl, rfl, rfl⟩
  | cons x b ih =>
    intro s t h
    unfold storeBytes at h
    cases h1 : storeByte s x with
    | error f => rw [h1] at h; cases h
    | ok s1 =>
      rw [h1] at h
      obtain ⟨a1, a2, a3, a4⟩ := ih h
      obtain ⟨b1, b2, b3, b4⟩ := storeByte_same h1
      exact ⟨a1.trans b1, a2.trans b2, a3.trans b3, a4.trans b4⟩

/-- PUSH touches BUF and WR only (R65). -/
theorem pushBytes_same {s t : State} {b : List Byte} (h : pushBytes s b = .ok t) :
    t.env = s.env ∧ t.cfg = s.cfg ∧ t.requests = s.requests ∧ t.crc = s.crc := by
  unfold pushBytes at h
  have h1 := storeBytes_same b h
  split at h1 <;> exact h1

theorem compact_same {s t : State} {d : List Byte} {n : Nat} (h : compact s d n = .ok t) :
    t.env = s.env ∧ t.cfg = s.cfg ∧ t.requests = s.requests ∧ t.crc = s.crc := by
  unfold compact at h
  cases hm : s.memWrite 0 (d.drop n) with
  | error f => rw [hm] at h; cases h
  | ok s1 =>
    rw [hm] at h
    cases h
    have h1 := memWrite_same hm
    exact h1

/-- DRAIN touches BUF and WR only (R67). -/
theorem drainFrames_same {s t : State} {fs : List Frame} (h : drainFrames s = .ok (t, fs)) :
    t.env = s.env ∧ t.cfg = s.cfg ∧ t.requests = s.requests ∧ t.crc = s.crc := by
  unfold drainFrames at h
  cases hr : s.memRead 0 s.wr with
  | error f => rw [hr] at h; cases h
  | ok d =>
    rw [hr] at h
    simp only at h
    cases hc : compact s d (scan d).pos with
    | error f => rw [hc] at h; cases h
    | ok s1 => rw [hc] at h; cases h; exact compact_same hc

theorem keepLast_length_le (cap : Nat) (l : List Byte) (h : 0 < cap) : (keepLast cap l).length ≤ cap := by
  have := Nat.mod_lt (l.length - 1) h
  simp only [keepLast, List.length_drop]
  omega

/-- PUSH completes and keeps the block's invariant (R12, R74). -/
theorem pushBytes_blockOk {s : State} (b : List Byte) (hc : 0 < s.cfg.cap) (h : s.blockOk = true) :
    ∃ t, pushBytes s b = .ok t ∧ t.blockOk = true := by
  obtain ⟨bs, hs, hl⟩ := (blockOk_iff s).1 h
  rw [hs, pushBytes_withBytes s bs b hc hl]
  refine ⟨_, rfl, (blockOk_iff _).2 ⟨_, rfl, ?_⟩⟩
  simp only [withBytes_cfg]
  split
  · simpa using ‹_›
  · exact keepLast_length_le _ _ hc

/-- DRAIN completes and keeps the block's invariant (R12, R74). -/
theorem drainFrames_blockOk {s : State} (h : s.blockOk = true) :
    ∃ t fs, drainFrames s = .ok (t, fs) ∧ t.blockOk = true := by
  obtain ⟨bs, hs, hl⟩ := (blockOk_iff s).1 h
  rw [hs, drainFrames_withBytes s bs hl]
  exact ⟨_, _, rfl, (blockOk_iff _).2 ⟨_, rfl, by simp; omega⟩⟩

/-- Everything an arrival of bytes does (R101 step 1). -/
theorem receiveBytes_cases {b : List Byte} {s t : State} (h : receiveBytes b s = .ok t) :
    ∃ s1 s2 fs, pushBytes s b = .ok s1 ∧ drainFrames s1 = .ok (s2, fs) ∧
      t = s2.setEnv (fs.foldl Env.applyFrame s2.env) := by
  unfold receiveBytes at h
  cases h1 : pushBytes s b with
  | error f => rw [h1] at h; cases h
  | ok s1 =>
    rw [h1] at h
    simp only at h
    cases h2 : drainFrames s1 with
    | error f => rw [h2] at h; cases h
    | ok x =>
      obtain ⟨s2, fs⟩ := x
      rw [h2] at h
      cases h
      exact ⟨s1, s2, fs, rfl, h2, rfl⟩

/-! One step. -/

theorem maxFrame_eq : maxFrame = 21 := rfl

theorem step_small {s : State} (h : s.cfg.cap < 21) : step s = .refused .capacityTooSmall := by
  rw [step, if_pos (by rw [maxFrame_eq]; exact h)]

theorem step_idle {s : State} (hc : 21 ≤ s.cfg.cap) (h : s.requests = []) : step s = .next s := by
  rw [step, if_neg (by rw [maxFrame_eq]; omega), h]

theorem step_perform {s : State} {i : Instr} {rest : List Request} (hc : 21 ≤ s.cfg.cap)
    (h : s.requests = .perform i :: rest) : step s = exec i (s.setRequests rest) := by
  rw [step, if_neg (by rw [maxFrame_eq]; omega), h]

theorem step_environment {s : State} {a : EnvAction} {rest : List Request} (hc : 21 ≤ s.cfg.cap)
    (h : s.requests = .environment a :: rest) : step s = environmentAction a (s.setRequests rest) := by
  rw [step, if_neg (by rw [maxFrame_eq]; omega), h]

/-- Everything a step can do. -/
theorem step_cases (s : State) :
    (s.cfg.cap < 21 ∧ step s = .refused .capacityTooSmall) ∨
    (21 ≤ s.cfg.cap ∧ s.requests = [] ∧ step s = .next s) ∨
    (∃ i rest, 21 ≤ s.cfg.cap ∧ s.requests = .perform i :: rest ∧ step s = exec i (s.setRequests rest)) ∨
    (∃ a rest, 21 ≤ s.cfg.cap ∧ s.requests = .environment a :: rest ∧
      step s = environmentAction a (s.setRequests rest)) := by
  by_cases hc : s.cfg.cap < 21
  · exact .inl ⟨hc, step_small hc⟩
  have hc' : 21 ≤ s.cfg.cap := by omega
  cases hr : s.requests with
  | nil => exact .inr (.inl ⟨hc', rfl, step_idle hc' hr⟩)
  | cons q rest =>
    cases q with
    | perform i => exact .inr (.inr (.inl ⟨i, rest, hc', rfl, step_perform hc' hr⟩))
    | environment a => exact .inr (.inr (.inr ⟨a, rest, hc', rfl, step_environment hc' hr⟩))

end Sys2Proof.Machine
end

