-- ==== Sys2Proof/Laws/PerInstr.lean ====
section
/-! SUPPORT. Statements made per instruction. Family `FrameLength`: a frame instruction of legal shape is 5 to 21 wire
bytes that begin `AA 55` (R30, R32); an operation has no bytes (R39). -/

namespace Sys2Proof.Laws

/-- A frame of legal shape is 5 to 21 bytes beginning `AA 55`; an operation has no encoding. -/
def FrameLength.Statement (i : Instr) : Prop :=
  i.shapeOk = true →
    match Sys2Proof.encode i with
    | some bs => 5 ≤ bs.length ∧ bs.length ≤ 21 ∧ beginsWithHeader bs = true
    | none => i.frameParts = none

theorem FrameLength.of_parts {i : Instr} {c k : Byte} {p : List Byte} (h : i.frameParts = some (c, p, k)) :
    FrameLength.Statement i := by
  intro hs
  have h1 := Instr.payload_le_of_shapeOk hs h
  have h2 := wireFrame_length c p k
  have h3 := beginsWithHeader_wireFrame c p k []
  rw [List.append_nil] at h3
  have h4 : Sys2Proof.encode i = some (wireFrame c p k) := by rw [Sys2Proof.encode, h]; rfl
  simp only [h4]
  have h5 : overhead = 5 := rfl
  have h6 : maxPayload = 16 := rfl
  exact ⟨by omega, by omega, h3⟩

theorem FrameLength.of_no_parts {i : Instr} (h : i.frameParts = none) : FrameLength.Statement i := by
  intro _
  have h1 : Sys2Proof.encode i = none := by rw [Sys2Proof.encode, h]; rfl
  simp only [h1, h]

theorem FrameLength.setSteering (payload : List Byte) (crc : Byte) : FrameLength.Statement (.setSteering payload crc) :=
  FrameLength.of_parts rfl
theorem FrameLength.setGain (payload : List Byte) (crc : Byte) : FrameLength.Statement (.setGain payload crc) :=
  FrameLength.of_parts rfl
theorem FrameLength.setEnable (payload : List Byte) (crc : Byte) : FrameLength.Statement (.setEnable payload crc) :=
  FrameLength.of_parts rfl
theorem FrameLength.telemetry (payload : List Byte) (crc : Byte) : FrameLength.Statement (.telemetry payload crc) :=
  FrameLength.of_parts rfl
theorem FrameLength.fault (payload : List Byte) (crc : Byte) : FrameLength.Statement (.fault payload crc) :=
  FrameLength.of_parts rfl
theorem FrameLength.heartbeat (payload : List Byte) (crc : Byte) : FrameLength.Statement (.heartbeat payload crc) :=
  FrameLength.of_parts rfl
theorem FrameLength.raw (cmd : Byte) (payload : List Byte) (crc : Byte) :
    FrameLength.Statement (.raw cmd payload crc) := FrameLength.of_parts rfl
theorem FrameLength.reset : FrameLength.Statement .reset := FrameLength.of_no_parts rfl
theorem FrameLength.crcInit : FrameLength.Statement .crcInit := FrameLength.of_no_parts rfl
theorem FrameLength.crcUpdate (b : Byte) : FrameLength.Statement (.crcUpdate b) := FrameLength.of_no_parts rfl
theorem FrameLength.crcRead : FrameLength.Statement .crcRead := FrameLength.of_no_parts rfl
theorem FrameLength.encode (cmd : Byte) (payload : List Byte) : FrameLength.Statement (.encode cmd payload) :=
  FrameLength.of_no_parts rfl
theorem FrameLength.decode (bytes : List Byte) : FrameLength.Statement (.decode bytes) := FrameLength.of_no_parts rfl
theorem FrameLength.push (bytes : List Byte) : FrameLength.Statement (.push bytes) := FrameLength.of_no_parts rfl
theorem FrameLength.drain : FrameLength.Statement .drain := FrameLength.of_no_parts rfl

end Sys2Proof.Laws
end

