-- ==== Sys2Proof/Tests/Slice0.lean ====
section
/-! SUPPORT. Own tests. Expected values are the spec's: 95_test_vectors.md (section named at each test), or written out
from R30 and R34. Then the witnesses: for each statement with hypotheses, a state and operands that meet them, at the
boundary of each clause. -/

namespace Sys2Proof.Tests

open Sys2Proof Sys2Proof.Machine

set_option Elab.async false

/-! Helpers. -/

/-- A block of a given capacity just after reset whose buffer holds some bytes. -/
def block (cap : Nat) (bs : List Byte) : State := (State.resetOf { sampleConfig with cap := cap }).withBytes bs

/-- A block whose environment is enabled, at a position, with a gain, and at a clock value. -/
def driven (position : Word16) (gain : Byte) (now : Nat) : State :=
  let s := block 64 []
  s.setEnv ((s.env.setDevice ⟨true, position, gain, .none, 0⟩).setLoop { s.env.loop with clock := now })

def nextOf : Result → Option State
  | .next s => some s
  | _ => none

def refusalOf : Result → Option Refusal
  | .refused r => some r
  | _ => none

/-- What an instruction answers, if it completes. -/
def answer (r : Result) : Option Response := (nextOf r).map fun s => s.response

/-- The bytes the buffer holds after, if it completes. -/
def held (r : Result) : Option (List Byte) := (nextOf r).map fun s => s.buf.map Prod.snd

/-- The device after, if it completes. -/
def deviceOf (r : Result) : Option DeviceState := (nextOf r).map fun s => s.env.device

/-- `n` bytes `11`. -/
def ones (n : Nat) : List Byte := List.replicate n 0x11

/-- The payload `00 01 .. 0F`. -/
def ramp : List Byte := [0, 1, 2, 3, 4, 5, 6, 7, 8, 9, 10, 11, 12, 13, 14, 15]

def heartbeatFrame : List Byte := [0xAA, 0x55, 0xF0, 0x00, 0x14]
def steeringFrame : List Byte := [0xAA, 0x55, 0x01, 0x02, 0xF4, 0x01, 0x87]
def longFrame : List Byte := [0xAA, 0x55, 0x01, 0x10] ++ ramp ++ [0x8B]

/-! Ill-formed terms, one for each check of WellFormed.lean, beside a well-formed one. -/

theorem test_illformed_setSteering_payload : (Instr.setSteering (ones 17) 0).shapeOk = false := by decide
theorem test_illformed_setGain_payload : (Instr.setGain (ones 17) 0).shapeOk = false := by decide
theorem test_illformed_setEnable_payload : (Instr.setEnable (ones 17) 0).shapeOk = false := by decide
theorem test_illformed_telemetry_payload : (Instr.telemetry (ones 17) 0).shapeOk = false := by decide
theorem test_illformed_fault_payload : (Instr.fault (ones 17) 0).shapeOk = false := by decide
theorem test_illformed_heartbeat_payload : (Instr.heartbeat (ones 17) 0).shapeOk = false := by decide
theorem test_illformed_raw_payload : (Instr.raw 0x7E (ones 17) 0).shapeOk = false := by decide
theorem test_illformed_raw_code : (Instr.raw 0x01 [] 0).shapeOk = false := by decide
theorem test_illformed_encode_payload : (Instr.encode 0x01 (ones 17)).shapeOk = false := by decide
theorem test_illformed_decode_header : (Instr.decode [0x55, 0xAA]).shapeOk = false := by decide
theorem test_illformed_crc :
    (Instr.setSteering [0xF4, 0x01] 0x86).wf = false ∧ (Instr.setGain [0x32] 0xA2).wf = false ∧
    (Instr.setEnable [0x01] 0xA8).wf = false ∧ (Instr.telemetry [0xFE, 0xFF, 0xE8, 0x03] 0).wf = false ∧
    (Instr.fault [0x01] 0xDC).wf = false ∧ (Instr.heartbeat [] 0x15).wf = false ∧
    (Instr.raw 0x7E [] 0x00).wf = false := by decide +kernel
theorem test_wellformed :
    (Instr.setSteering [0xF4, 0x01] 0x87).wf = true ∧ (Instr.setGain [0x32] 0x5D).wf = true ∧
    (Instr.heartbeat [] 0x14).wf = true ∧ (Instr.raw 0x00 [] 0x00).wf = true := by decide +kernel

/-! Words written out from R30 and R34: `10101010 01010101 cccccccc llllllll`, payload, CRC. -/

theorem test_word_setSteering :
    decode [0b10101010, 0b01010101, 0b00000001, 0b00000010, 0b11110100, 0b00000001, 0b10000111] =
      .ok (.setSteering [0xF4, 0x01] 0x87, []) := by decide +kernel
theorem test_word_setGain :
    decode [0b10101010, 0b01010101, 0b00000010, 0b00000001, 0b11001000, 0b10110101] =
      .ok (.setGain [0xC8] 0xB5, []) := by decide +kernel
theorem test_word_setEnable :
    decode [0b10101010, 0b01010101, 0b00000011, 0b00000001, 0b00000000, 0b10101000] =
      .ok (.setEnable [0x00] 0xA8, []) := by decide +kernel
theorem test_word_telemetry :
    decode [0b10101010, 0b01010101, 0b00010000, 0b00000100, 0x00, 0x80, 0xFF, 0xFF, 0x3E] =
      .ok (.telemetry [0x00, 0x80, 0xFF, 0xFF] 0x3E, []) := by decide +kernel
theorem test_word_fault :
    decode [0b10101010, 0b01010101, 0b00010001, 0b00000001, 0b00000010, 0b11010010] =
      .ok (.fault [0x02] 0xD2, []) := by decide +kernel
theorem test_word_heartbeat :
    decode [0b10101010, 0b01010101, 0b11110000, 0b00000000, 0b00010100, 0x99] =
      .ok (.heartbeat [] 0x14, [0x99]) := by decide +kernel
theorem test_word_raw :
    decode [0b10101010, 0b01010101, 0b11111111, 0b00000010, 0xAA, 0x55, 0x31] =
      .ok (.raw 0xFF [0xAA, 0x55] 0x31, []) := by decide +kernel

/-- The match words of opcode_table.json: the first byte on the wire is bits 31 to 24 (R30). -/
theorem test_table_words :
    decodeTableWord 32 0xAA550100 = some (.setSteering [] 0) ∧ decodeTableWord 32 0xAA550200 = some (.setGain [] 0) ∧
    decodeTableWord 32 0xAA550300 = some (.setEnable [] 0) ∧ decodeTableWord 32 0xAA551000 = some (.telemetry [] 0) ∧
    decodeTableWord 32 0xAA551100 = some (.fault [] 0) ∧ decodeTableWord 32 0xAA55F000 = some (.heartbeat [] 0) ∧
    decodeTableWord 32 0xAA550000 = some (.raw 0x00 [] 0) ∧ decodeTableWord 32 0xAA550111 = none := by decide +kernel

/-- `step` runs the word that `withFetchWord` placed: Raw 0x00 has CRC 0x00, passes, and refreshes the timestamp. -/
theorem test_fetch_word_runs :
    deviceOf (step ((driven 7 50 9).withFetchWord 32 0xAA550000)) = some ⟨true, 7, 50, .none, 9⟩ := by decide +kernel

/-- As the first step after reset each match word completes; its CRC byte 0x00 is wrong for all but Raw 0x00. -/
theorem test_fetch_words_after_reset :
    ([0xAA550100, 0xAA550200, 0xAA550300, 0xAA551000, 0xAA551100, 0xAA55F000, 0xAA550000] : List Nat).all
      (fun w => nextOf (step (State.reset.withFetchWord 32 w)) == some State.reset) = true := by decide +kernel

/-! CRC-8 (2.1, 2.2). -/

theorem test_crcStep :
    crcStep 0x00 0x01 = 0x07 ∧ crcStep 0x00 0x80 = 0x89 ∧ crcStep 0x00 0xFF = 0xF3 ∧ crcStep 0x1B 0xF4 = 0x83 := by
  decide +kernel
theorem test_crc8 :
    crc8 [0x31, 0x32, 0x33, 0x34, 0x35, 0x36, 0x37, 0x38, 0x39] = 0xF4 ∧ crc8 [0xAA, 0x55] = 0x36 ∧
    crc8 [0x02, 0x05, 0x32, 0x5D, 0xAA, 0x55, 0xF0] = 0xF8 := by decide +kernel
theorem test_crcInit : (nextOf (exec .crcInit ((block 64 []).setCrc 0x83))).map (fun s => s.crc) = some 0x00 := by
  decide +kernel
theorem test_crcUpdate :
    (nextOf (exec (.crcUpdate 0x02) ((block 64 []).setCrc 0x07))).map (fun s => s.crc) = some 0x1B := by decide +kernel
theorem test_crcRead : answer (exec .crcRead ((block 64 []).setCrc 0x87)) = some (.byte 0x87) := by decide +kernel

/-! RESET (R130). -/

theorem test_reset :
    (nextOf (exec .reset ((block 64 [0xAA, 0x55]).setCrc 0x83))).map (fun s => (s.wr, s.crc)) = some (0, 0x00) := by
  decide +kernel

/-! ENCODE (2.4), DECODE (2.5). -/

theorem test_encode_longest : answer (exec (.encode 0x01 ramp) (block 64 [])) = some (.bytes longFrame) := by
  decide +kernel
theorem test_encode_header_bytes :
    answer (exec (.encode 0xFF [0xAA, 0x55]) (block 64 [])) =
      some (.bytes [0xAA, 0x55, 0xFF, 0x02, 0xAA, 0x55, 0x31]) := by decide +kernel
theorem test_decode_invalid_span :
    answer (exec (.decode [0xAA, 0x55, 0x02, 0x05, 0x32, 0x5D, 0xAA, 0x55, 0xF0, 0x00]) (block 64 [])) =
      some (.decoded (.invalid 10)) := by decide +kernel
theorem test_decode_frame :
    answer (exec (.decode (steeringFrame ++ [0xAA, 0x55])) (block 64 [])) =
      some (.decoded (.frame ⟨0x01, [0xF4, 0x01], 0x87⟩ 7)) := by decide +kernel

/-! PUSH (2.6, CAP = 32), DRAIN (2.7; 3 P4). -/

theorem test_push_longer_than_buffer :
    held (exec (.push (ones 30 ++ steeringFrame ++ heartbeatFrame)) (block 32 [])) =
      some [0x01, 0x02, 0xF4, 0x01, 0x87, 0xAA, 0x55, 0xF0, 0x00, 0x14] := by decide +kernel
theorem test_push_overflow : held (exec (.push [0x33]) (block 32 (ones 32))) = some [0x33] := by decide +kernel
theorem test_drain_false_header :
    answer (exec .drain (block 64 ([0xAA, 0x55] ++ heartbeatFrame))) = some (.frames [⟨0xF0, [], 0x14⟩]) := by
  decide +kernel
theorem test_drain_corrupted_length :
    answer (exec .drain (block 64 (steeringFrame ++ [0xAA, 0x55, 0x02, 0x05, 0x32, 0x5D] ++ heartbeatFrame ++
      [0xAA, 0x55, 0x03, 0x01, 0x01, 0xAF]))) =
      some (.frames [⟨0x01, [0xF4, 0x01], 0x87⟩, ⟨0x03, [0x01], 0xAF⟩]) := by decide +kernel

/-! Commands at the device (2.8); the clock is 9. -/

theorem test_setSteering :
    deviceOf (exec (.setSteering [0xF4, 0x01] 0x87) (driven 0 50 9)) = some ⟨true, 500, 50, .none, 9⟩ := by
  decide +kernel
theorem test_setSteering_short :
    deviceOf (exec (.setSteering [0xF4] 0xBC) (driven 500 50 9)) = some ⟨true, 500, 50, .none, 9⟩ := by decide +kernel
theorem test_setGain :
    deviceOf (exec (.setGain [0xC8] 0xB5) (driven 0 50 9)) = some ⟨true, 0, 100, .none, 9⟩ := by decide +kernel
theorem test_setEnable :
    (nextOf (exec (.setEnable [0x00] 0xA8) ((driven 0 50 9).setEnv ((driven 0 50 9).env.setActuator (.driven 1500))))).map
      (fun s => (s.env.device, s.env.actuator)) = some (⟨false, 0, 50, .none, 9⟩, .relaxed) := by decide +kernel
theorem test_heartbeat :
    deviceOf (exec (.heartbeat [] 0x14) (driven 5 50 9)) = some ⟨true, 5, 50, .none, 9⟩ := by decide +kernel
theorem test_heartbeat_wrong_crc :
    deviceOf (exec (.heartbeat [] 0x15) (driven 5 50 9)) = some ⟨true, 5, 50, .none, 0⟩ := by decide +kernel
theorem test_fault_arriving :
    deviceOf (exec (.fault [0x01] 0xDB) (driven 5 50 9)) = some ⟨true, 5, 50, .none, 9⟩ := by decide +kernel
theorem test_telemetry_arriving :
    deviceOf (exec (.telemetry [0xFE, 0xFF, 0xE8, 0x03] 0x1F) (driven 5 50 9)) = some ⟨true, 5, 50, .none, 9⟩ := by
  decide +kernel
theorem test_raw :
    deviceOf (exec (.raw 0x7E [] 0x74) (driven 5 50 9)) = some ⟨true, 5, 50, .none, 9⟩ := by decide +kernel

/-! Control Loop: the Fault, Telemetry and Heartbeat frames (2.4). -/

theorem test_timeout_sends_fault :
    ((driven 0 50 9).env.checkTimeout { sampleConfig with serialTimeout := 8 }).tx =
      [0xAA, 0x55, 0x11, 0x01, 0x01, 0xDB] := by decide +kernel
theorem test_telemetry_sent :
    (((driven 0 50 9).env.setLoop { LoopState.startup with angleRaw := 0xFFFE, loopRateHz := 1000 }).emitTelemetry
      sampleConfig).tx = [0xAA, 0x55, 0x10, 0x04, 0xFE, 0xFF, 0xE8, 0x03, 0x1F] := by decide +kernel
theorem test_scenario :
    deviceOf (environmentAction (.receive (steeringFrame ++ heartbeatFrame)) (driven 0 50 9)) =
      some ⟨true, 500, 50, .none, 9⟩ := by decide +kernel

/-! Witnesses. Encoding and decoding. -/

theorem witness_DecodeOfEncodeIsTheInstruction :
    (Instr.setSteering ramp 0x8B).shapeOk = true ∧ encode (.setSteering ramp 0x8B) = some longFrame ∧
    (Instr.heartbeat [] 0x15).shapeOk = true ∧ encode (.heartbeat [] 0x15) = some [0xAA, 0x55, 0xF0, 0x00, 0x15] := by
  decide +kernel
theorem witness_EncodeOfDecodeIsTheBytes :
    decode (longFrame ++ [0x99]) = .ok (.setSteering ramp 0x8B, [0x99]) := by decide +kernel
theorem witness_DecoderRejectsByName :
    decode [0x55, 0xAA] = .error .badHeader ∧ decode [0xAA, 0x55, 0x02, 0x11] = .error .badLength ∧
    decode [0xAA] = .error .truncated ∧ decode [0xAA, 0x55, 0x02] = .error .truncated ∧
    decode ([0xAA, 0x55, 0x01, 0x10] ++ ramp) = .error .truncated := by decide +kernel
theorem witness_BlockDecodeAgreesWithInstructionDecoder :
    beginsWithHeader longFrame = true ∧ decodeFrame longFrame = .frame ⟨0x01, ramp, 0x8B⟩ 21 ∧
    decode longFrame = .ok (frameInstr ⟨0x01, ramp, 0x8B⟩, []) ∧
    decodeFrame heartbeatFrame = .frame ⟨0xF0, [], 0x14⟩ 5 := by decide +kernel

/-! Witnesses. CRC-8 and RESET. -/

theorem witness_CrcIsLinearWithZeroResidue :
    [0x01, 0x02, 0xF4, 0x01].length = ([0x00, 0x00, 0x04, 0x00] : List Byte).length ∧
    crc8 [0x01, 0x02, 0xF0, 0x01] = 0x87 ^^^ 0x54 := by decide +kernel
/-- Bits 0 and 7 of a byte, the first byte and a middle one (2.2). -/
theorem witness_CrcDetectsEverySingleBitFlip :
    (0 : Nat) < 8 ∧ (0x01 : Byte) ^^^ (1#8 <<< 0) = 0x00 ∧ crc8 [0x00, 0x02, 0xF4, 0x01] = 0x91 ∧
    (7 : Nat) < 8 ∧ (0xF4 : Byte) ^^^ (1#8 <<< 7) = 0x74 ∧ crc8 [0x01, 0x02, 0x74, 0x01] = 0x31 ∧
    crc8 [0x01, 0x02, 0xF4, 0x01] = 0x87 := by decide +kernel
theorem witness_UpdatesWithoutInitContinueTheMessage :
    ((block 64 []).setCrc 0x1B).crc = crc8 [0x01, 0x02] ∧ ([0xF4, 0x01] : List Byte) ≠ [] ∧
    (nextOf (execAll [.crcUpdate 0xF4, .crcUpdate 0x01] ((block 64 []).setCrc 0x1B))).map (fun s => s.crc) =
      some 0x87 := by decide +kernel
theorem witness_ResetClearsCursorAndCrc :
    (ones 21).length ≤ (block 21 (ones 3)).cfg.cap ∧
    held (execAll [.reset, .push (ones 21)] (block 21 (ones 3))) = some (ones 21) := by decide +kernel

/-! Witnesses. ENCODE and DECODE. -/

theorem witness_EncodeAnswersTheWireFrame : ramp.length ≤ 16 ∧ ([] : List Byte).length ≤ 16 ∧
    answer (exec (.encode 0x00 []) (block 64 [])) = some (.bytes [0xAA, 0x55, 0x00, 0x00, 0x00]) := by decide +kernel
theorem witness_OversizedEncodeIsRefused :
    16 < (ones 17).length ∧ refusalOf (exec (.encode 0x01 (ones 17)) (block 64 [])) = some .oversizedPayload := by
  decide +kernel
theorem witness_EncodedFrameRoundTrips :
    ramp.length ≤ 16 ∧ 21 ≤ (block 21 []).cfg.cap ∧
    answer (execAll [.push longFrame, .drain] (block 21 [])) = some (.frames [⟨0x01, ramp, 0x8B⟩]) := by decide +kernel
theorem witness_DecodeBeforeTheChecksum :
    ([0xF0] : List Byte).length < 2 ∧
    answer (exec (.decode [0xAA, 0x55, 0xF0]) (block 64 [])) = some (.decoded .needMoreData) ∧
    16 < (0x11 : Byte).toNat ∧ 16 < (0xFF : Byte).toNat ∧
    answer (exec (.decode [0xAA, 0x55, 0x02, 0x11]) (block 64 [])) = some (.decoded .badLength) ∧
    (0x10 : Byte).toNat ≤ 16 ∧ 4 + ramp.length < 5 + (0x10 : Byte).toNat ∧
    answer (exec (.decode ([0xAA, 0x55, 0x01, 0x10] ++ ramp)) (block 64 [])) = some (.decoded .needMoreData) := by
  decide +kernel
theorem witness_DecodeOfAWrongChecksumIsInvalid :
    ([] : List Byte).length ≤ 16 ∧ crc8 [0xF0, 0x00] ≠ 0x15 ∧
    answer (exec (.decode [0xAA, 0x55, 0xF0, 0x00, 0x15]) (block 64 [])) = some (.decoded (.invalid 5)) ∧
    ramp.length ≤ 16 ∧ crc8 (0x01 :: 0x10 :: ramp) ≠ 0x8A := by decide +kernel
theorem witness_DecodeWithoutTheHeaderIsRefused :
    (¬ ∃ r, ([0xAA] : List Byte) = 0xAA :: 0x55 :: r) ∧ (¬ ∃ r, ([0x55, 0xAA] : List Byte) = 0xAA :: 0x55 :: r) ∧
    refusalOf (exec (.decode [0xAA]) (block 64 [])) = some .noHeader ∧
    refusalOf (exec (.decode [0x55, 0xAA]) (block 64 [])) = some .noHeader := by
  refine ⟨?_, ?_, by decide +kernel, by decide +kernel⟩ <;> rintro ⟨r, h⟩ <;> simp at h
theorem witness_DecodeOutcomeIsStableUnderMoreBytes :
    (DecodeResult.badLength ≠ .needMoreData) ∧
    answer (exec (.decode [0xAA, 0x55, 0x02, 0x11]) (block 64 [])) = some (.decoded .badLength) ∧
    answer (exec (.decode [0xAA, 0x55, 0x02, 0x11, 0x00]) (block 64 [])) = some (.decoded .badLength) ∧
    answer (exec (.decode (heartbeatFrame ++ [0x99])) (block 64 [])) = some (.decoded (.frame ⟨0xF0, [], 0x14⟩ 5)) := by
  decide +kernel

/-! Witnesses. PUSH (2.6). -/

theorem witness_PushAppendsABurstThatFits :
    (ones 20).length + (List.replicate 12 (0x22 : Byte)).length ≤ (block 32 []).cfg.cap ∧
    held (exec (.push (List.replicate 12 0x22)) (block 32 (ones 20))) = some (ones 20 ++ List.replicate 12 0x22) := by
  decide +kernel
theorem witness_PushOverflowKeepsOnlyTheBurst :
    (ones 30).length ≤ (block 32 []).cfg.cap ∧ steeringFrame.length ≤ (block 32 []).cfg.cap ∧
    (block 32 []).cfg.cap < (ones 30).length + steeringFrame.length ∧
    held (exec (.push steeringFrame) (block 32 (ones 30))) = some steeringFrame ∧
    held (exec (.push (ones 32)) (block 32 [0x22])) = some (ones 32) := by decide +kernel
theorem witness_PushLongerThanTheBufferKeepsTheLastBytes :
    (ones 5).length ≤ (block 32 []).cfg.cap ∧ 0 < (ones 32).length ∧ (ones 32).length % (block 32 []).cfg.cap = 0 ∧
    0 < (List.replicate 32 (0x22 : Byte)).length ∧ (List.replicate 32 (0x22 : Byte)).length ≤ (block 32 []).cfg.cap ∧
    held (exec (.push (ones 32 ++ List.replicate 32 0x22)) (block 32 (ones 5))) = some (List.replicate 32 0x22) ∧
    held (exec (.push (ones 32 ++ [0x22])) (block 32 (ones 5))) = some [0x22] := by decide +kernel
theorem witness_PushChangesOnlyTheStoredBytes :
    (block 32 (ones 31)).wr + ([0x22] : List Byte).length ≤ (block 32 []).cfg.cap ∧
    held (exec (.push [0x22]) (block 32 (ones 31))) = some (ones 31 ++ [0x22]) := by decide +kernel

/-! Witnesses. DRAIN (2.7). -/

theorem witness_DrainRemovesAPrefix :
    (ones 32).length ≤ (block 32 []).cfg.cap ∧ held (exec .drain (block 32 (ones 32))) = some [0x11] := by decide +kernel
theorem witness_DrainSkipsAByteWithoutHeader :
    (heartbeatFrame.drop 1).length + 2 ≤ (block 21 []).cfg.cap ∧ ¬ ((0xAA : Byte) = 0xAA ∧ (0xAA : Byte) = 0x55) ∧
    (List.replicate 19 (0x11 : Byte)).length + 2 ≤ (block 21 []).cfg.cap ∧
    answer (exec .drain (block 21 (0xAA :: heartbeatFrame))) = some (.frames [⟨0xF0, [], 0x14⟩]) := by decide +kernel
theorem witness_DrainEmitsAValidFrame :
    ramp.length ≤ 16 ∧ 5 + ramp.length + ([] : List Byte).length ≤ (block 21 []).cfg.cap ∧
    answer (exec .drain (block 21 longFrame)) = some (.frames [⟨0x01, ramp, 0x8B⟩]) := by decide +kernel
theorem witness_DrainSkipsAnInvalidFrameWhole :
    ([0x32] : List Byte).length ≤ 16 ∧ 5 + 1 + heartbeatFrame.length ≤ (block 21 []).cfg.cap ∧
    crc8 [0x02, 0x01, 0x32] ≠ 0xA2 ∧
    answer (exec .drain (block 21 ([0xAA, 0x55, 0x02, 0x01, 0x32, 0xA2] ++ heartbeatFrame))) =
      some (.frames [⟨0xF0, [], 0x14⟩]) := by decide +kernel
theorem witness_DrainPassesABadLengthByOneByte :
    4 + (List.replicate 17 (0x11 : Byte)).length ≤ (block 21 []).cfg.cap ∧ 16 < (0x11 : Byte).toNat ∧
    held (exec .drain (block 21 [0xAA, 0x55, 0xAA, 0x55])) = some [0xAA, 0x55] := by decide +kernel
theorem witness_DrainKeepsWhatIsNotComplete :
    held (exec .drain (block 21 [0x31])) = some [0x31] ∧
    held (exec .drain (block 21 [0xAA, 0x55, 0xF0])) = some [0xAA, 0x55, 0xF0] ∧
    (0x10 : Byte).toNat ≤ 16 ∧ 4 + ramp.length < 5 + (0x10 : Byte).toNat ∧
    held (exec .drain (block 21 ([0xAA, 0x55, 0x01, 0x10] ++ ramp))) = some ([0xAA, 0x55, 0x01, 0x10] ++ ramp) := by
  decide +kernel
theorem witness_AfterDrainOnlyAnIncompleteFrameIsHeld :
    (block 21 ([0x11, 0xAA, 0x55, 0x01, 0x10] ++ ramp)).blockOk = true ∧
    held (exec .drain (block 21 ([0x11, 0xAA, 0x55, 0x01, 0x10] ++ ramp))) = some ([0xAA, 0x55, 0x01, 0x10] ++ ramp) := by
  decide +kernel
theorem witness_PushAfterDrainNeverOverflows :
    21 ≤ (block 32 []).cfg.cap ∧ (block 32 ([0xAA, 0x55, 0x01, 0x10] ++ ramp)).blockOk = true ∧
    (nextOf (exec .drain (block 32 ([0xAA, 0x55, 0x01, 0x10] ++ ramp)))).isSome = true ∧
    (ones 12).length ≤ (block 32 []).cfg.cap - 20 := by decide +kernel
theorem witness_BurstsDeliverWhatTheWholeStreamDelivers :
    ([[0x00, 0xAA, 0x13, 0xAA], [0x55, 0xF0], [], [0x00, 0x14]] : List (List Byte)) ≠ [] ∧
    ([0x31] : List Byte).length +
      ([[0x00, 0xAA, 0x13, 0xAA], [0x55, 0xF0], [], [0x00, 0x14]] : List (List Byte)).flatten.length ≤
      (block 9 []).cfg.cap ∧
    (deliverChunks [[0x00, 0xAA, 0x13, 0xAA], [0x55, 0xF0], [], [0x00, 0x14]] (block 9 [0x31])).map (fun p => p.2) =
      some [⟨0xF0, [], 0x14⟩] := by decide +kernel
theorem witness_TwoFramesSplitAnywhereComeOutOnce :
    10 + ([0xF4, 0x01] : List Byte).length + ([] : List Byte).length ≤ (block 12 []).cfg.cap ∧
    [steeringFrame ++ [0xAA], [0x55, 0xF0, 0x00, 0x14]].flatten =
      encodeFrame 0x01 [0xF4, 0x01] ++ encodeFrame 0xF0 [] ∧
    (deliverChunks [steeringFrame ++ [0xAA], [0x55, 0xF0, 0x00, 0x14]] (block 12 [])).map (fun p => p.2) =
      some [⟨0x01, [0xF4, 0x01], 0x87⟩, ⟨0xF0, [], 0x14⟩] := by decide +kernel
/-- Garbage that ends in `AA`, just before the frame's own header. -/
theorem witness_GarbageBeforeAFrameIsSkipped :
    ([] : List Byte).length ≤ 16 ∧ ([0x55, 0xAA] : List Byte).length + 5 + 0 ≤ (block 7 []).cfg.cap ∧
    (¬ ∃ a b, ([0x55, 0xAA] : List Byte) = a ++ 0xAA :: 0x55 :: b) ∧
    answer (exec .drain (block 7 ([0x55, 0xAA] ++ heartbeatFrame))) = some (.frames [⟨0xF0, [], 0x14⟩]) := by
  refine ⟨by decide, by decide, ?_, by decide +kernel⟩
  rintro ⟨a, b, h⟩
  match a with
  | [] => simp at h
  | _ :: a =>
    have := congrArg List.length h
    simp at this
    omega
theorem witness_ErrorEventsAreTheListedOutcomes :
    (scan [0xAA, 0x31]).events = [.headerMiss] ∧
    (scan [0xAA, 0x55, 0xAA, 0x55]).events = [.badLength, .headerMiss, .needMoreData] ∧
    (scan ([0xAA, 0x55, 0x02, 0x01, 0x32, 0xA2] ++ heartbeatFrame)).events = [.invalid 6] ∧
    pushEvents 32 20 (ones 12) = [] ∧ pushEvents 32 32 [0x33] = [.overflow] ∧ pushEvents 32 0 (ones 42) = [.overflow] ∧
    pushEvents 32 0 (ones 32) = [] := by decide +kernel

/-! Witnesses. Commands. -/

theorem witness_SetSteeringStoresThePosition :
    ramp.length ≤ 16 ∧ ([0x00, 0x80] : List Byte).length ≤ 16 ∧ crc8 [0x01, 0x02, 0x00, 0x80] = 0x49 ∧
    deviceOf (exec (.setSteering [0x00, 0x80] 0x49) (driven 500 50 9)) = some ⟨true, 0x8000, 50, .none, 9⟩ := by
  decide +kernel
theorem witness_SetGainClampsToOneHundred :
    ([0x64] : List Byte).length ≤ 16 ∧ crc8 [0x02, 0x01, 0x64] = 0xF8 ∧ ([] : List Byte).length ≤ 16 ∧
    deviceOf (exec (.setGain [0x64] 0xF8) (driven 5 50 9)) = some ⟨true, 5, 100, .none, 9⟩ := by decide +kernel
theorem witness_SetEnableSetsEnabledAndRelaxes :
    ([0x01] : List Byte).length ≤ 16 ∧ crc8 [0x03, 0x01, 0x01] = 0xAF ∧ crc8 [0x03, 0x01, 0x00] = 0xA8 ∧
    deviceOf (exec (.setEnable [0x01] 0xAF) (driven 5 50 9)) = some ⟨true, 5, 50, .none, 9⟩ := by decide +kernel
theorem witness_OtherFramesOnlyRefreshTheTimestamp :
    ([] : List Byte).length ≤ 16 ∧ ramp.length ≤ 16 ∧ Command.ofCode 0x7E = none ∧ Command.ofCode 0x00 = none ∧
    Command.ofCode 0xFF = none := by decide +kernel
theorem witness_FrameTheParserDropsChangesNothing :
    (Instr.heartbeat [] 0x15).frameParts = some (0xF0, [], 0x15) ∧ crc8 [0xF0, lenByte []] ≠ 0x15 ∧
    (Instr.setGain (ones 17) 0x00).frameParts = some (0x02, ones 17, 0x00) ∧ 16 < (ones 17).length := by decide +kernel
theorem witness_CommandsLeaveTheBlockAlone : (Instr.setGain [0x32] 0x5D).frameParts ≠ none := by decide +kernel
theorem witness_OperationsTouchOnlyTheirOwnState :
    (Instr.push [0x33]).frameParts = none ∧ (nextOf (exec (.push [0x33]) (block 32 (ones 32)))).isSome = true := by
  decide +kernel

/-! Witnesses. The environment. -/

/-- The timeout is strict: 8 ms since the last frame is not more than 8; 9 is (R99). -/
theorem witness_TimeoutDisablesAndReportsOnce :
    (driven 0 50 9).env.device.enabled = true ∧
    8 < (driven 0 50 9).env.loop.clock - (driven 0 50 9).env.device.lastCommandTimestamp ∧
    (driven 0 50 8).env.loop.clock - (driven 0 50 8).env.device.lastCommandTimestamp ≤ 8 ∧
    ((driven 0 50 8).env.checkTimeout { sampleConfig with serialTimeout := 8 }).device.enabled = true ∧
    ((driven 0 50 9).env.checkTimeout { sampleConfig with serialTimeout := 8 }).device =
      ⟨false, 0, 50, .serialTimeout, 0⟩ := by decide +kernel
theorem witness_PulseWidthMeetsTheThreePointsAndTheRange :
    let c := { sampleConfig with servoMinUs := 500, servoMaxUs := 2500 }
    c.servoMinUs ≤ c.servoMaxUs ∧ (0x7FFF : Word16).toInt = 32767 ∧ (0x8000 : Word16).toInt = -32768 ∧
    computeActuatorMicroseconds c ⟨true, 0x7FFF, 100, .none, 0⟩ = 2500 ∧
    computeActuatorMicroseconds c ⟨true, 0x8000, 100, .none, 0⟩ = 500 ∧
    (driven 0x7FFF 100 9).env.device.enabled = true ∧
    ((driven 0x7FFF 100 9).env.actuate c).actuator = .driven 2500 ∧
    (block 64 []).env.device.enabled = false ∧ ((block 64 []).env.actuate c).actuator = .relaxed := by decide +kernel
/-- Both intervals at their boundary: 9 ms since the last emission is an interval of 9 and is not one of 10 (log 15). -/
theorem witness_TelemetryAndHeartbeatAreSent :
    (driven 0 50 9).env.loop.angleRaw = le16 0x00 0x00 ∧ (driven 0 50 9).env.loop.loopRateHz = le16 0x00 0x00 ∧
    9 ≤ (driven 0 50 9).env.loop.clock - (driven 0 50 9).env.loop.lastTelemetry ∧
    9 ≤ (driven 0 50 9).env.loop.clock - (driven 0 50 9).env.loop.lastHeartbeat ∧
    (driven 0 50 9).env.loop.clock - (driven 0 50 9).env.loop.lastTelemetry < 10 ∧
    (driven 0 50 9).env.loop.clock - (driven 0 50 9).env.loop.lastHeartbeat < 10 ∧
    ((driven 0 50 9).env.emitTelemetry { sampleConfig with telemetryInterval := 9 }).tx =
      [0xAA, 0x55, 0x10, 0x04, 0x00, 0x00, 0x00, 0x00, 0x11] ∧
    ((driven 0 50 9).env.emitTelemetry { sampleConfig with telemetryInterval := 10 }).tx = [] ∧
    ((driven 0 50 9).env.emitHeartbeat { sampleConfig with heartbeatInterval := 9 }).tx = heartbeatFrame ∧
    ((driven 0 50 9).env.emitHeartbeat { sampleConfig with heartbeatInterval := 10 }).tx = [] := by decide +kernel
theorem witness_FaultCodeIsNeverCleared :
    let s := (driven 0 50 9).setEnv ((driven 0 50 9).env.setDevice ⟨false, 0, 50, .serialTimeout, 0⟩)
    let t := s.setRequests [.perform (.setEnable [0x01] 0xAF)]
    t.env.device.faultCode ≠ .none ∧ deviceOf (step t) = some ⟨true, 0, 50, .serialTimeout, 9⟩ := by decide +kernel

/-! Witnesses. The machine. -/

theorem witness_StepPerformsWhatIsAskedFirst :
    21 ≤ (block 21 []).cfg.cap ∧
    ((block 21 []).setRequests [.perform .crcRead]).requests = .perform .crcRead :: [] ∧ (block 21 []).requests = [] ∧
    (block 20 []).cfg.cap < 21 ∧ refusalOf (step (block 20 [])) = some .capacityTooSmall := by decide +kernel
/-- Each asked step of the Control Loop, after which nothing more is asked; a sample and the clock are what was given. -/
theorem witness_StepPerformsWhatIsAskedFirst_environment :
    ([.checkTimeout, .sampleAngle 0xFFFE, .actuate, .emitTelemetry, .emitHeartbeat, .countLoop, .pace,
      .advanceClock 7] : List EnvAction).all
      (fun a => (nextOf (step ((block 21 []).setRequests [.environment a]))).map (fun s => s.requests) == some []) =
      true ∧
    (nextOf (step ((block 21 []).setRequests [.environment (.sampleAngle 0xFFFE)]))).map
      (fun s => s.env.loop.angleRaw) = some 0xFFFE ∧
    (nextOf (step ((block 21 []).setRequests [.environment (.advanceClock 7)]))).map
      (fun s => s.env.loop.clock) = some 7 := by decide +kernel
theorem witness_StepRunsTheDecodedInstruction :
    21 ≤ (block 21 []).cfg.cap ∧ decode longFrame = .ok (.setSteering ramp 0x8B, []) ∧
    deviceOf (step ((block 21 []).setRequests [.environment (.receive longFrame)])) =
      some ⟨false, 0x0100, 0, .none, 0⟩ := by decide +kernel
theorem witness_StepOnReceivedBytesRunsTheEmittedFrames :
    21 ≤ (block 21 []).cfg.cap ∧ (ones 21).length ≤ (block 21 []).cfg.cap ∧
    ((block 21 []).setRequests [.environment (.receive steeringFrame)]).requests =
      .environment (.receive steeringFrame) :: [] := by decide +kernel
theorem witness_IterationAsksForItsStepsInOrder :
    21 ≤ (block 21 []).cfg.cap ∧
    ((block 21 []).setRequests [.environment (.iteration ⟨[], 0, [1]⟩)]).requests =
      .environment (.iteration ⟨[], 0, [1]⟩) :: [] := by decide +kernel
/-- Step 7 at 999 and at 1000 ms since the last snapshot, with the greatest count that fits `u16` (R93, R101). -/
theorem witness_IterationAsksForItsStepsInOrder_count :
    let e (now n : Nat) := (block 21 []).env.setLoop { LoopState.startup with clock := now, loopCounter := n }
    (e 999 5).loop.clock - (e 999 5).loop.lastSnapshot < 1000 ∧ (e 999 5).countLoop.loop.loopCounter = 6 ∧
    (e 999 5).countLoop.loop.loopRateHz = 0 ∧
    1000 ≤ (e 1000 65534).loop.clock - (e 1000 65534).loop.lastSnapshot ∧ (e 1000 65534).loop.loopCounter + 1 < 65536 ∧
    (e 1000 65534).countLoop.loop.loopRateHz = 65535 ∧ (e 1000 65534).countLoop.loop.loopCounter = 0 ∧
    (e 1000 65534).countLoop.loop.lastSnapshot = 1000 := by decide +kernel
/-- Step 8 with a period of 10 ms, 9 ms and 10 ms after the iteration began (R100, R102). -/
theorem witness_IterationAsksForItsStepsInOrder_pace :
    let c := { sampleConfig with controlLoopHz := 100 }
    let e (now : Nat) := (block 21 []).env.setLoop { LoopState.startup with clock := now, iterationStart := 50 }
    (e 59).loop.clock < (e 59).loop.iterationStart + 1000 / c.controlLoopHz ∧ ((e 59).pace c).loop.clock = 60 ∧
    (e 60).loop.iterationStart + 1000 / c.controlLoopHz ≤ (e 60).loop.clock ∧ ((e 60).pace c).loop.clock = 60 ∧
    ((e 75).pace c).loop.clock = 75 := by decide +kernel
/-- An enabled, driven block with a full buffer. -/
theorem witness_EveryStepKeepsTheInvariant :
    let s := (block 21 (ones 21)).setEnv
      { (block 21 []).env with device := ⟨true, 5, 100, .serialTimeout, 0⟩, actuator := .driven 0 }
    let t := s.setRequests [.perform (.push [0x33])]
    (t.cfg.legal = true ∧ t.blockOk = true ∧ t.env.ok t.cfg = true) ∧ (nextOf (step t)).isSome = true := by
  decide +kernel
theorem witness_ResetMeetsTheInvariant :
    ({ sampleConfig with cap := 21, defaultGain := 100 } : Config).legal = true := by decide
theorem witness_NoStepFromALegalStateFaults :
    (block 21 (ones 21)).cfg.legal = true ∧ (block 21 (ones 21)).blockOk = true ∧
    (block 21 (ones 21)).env.ok (block 21 (ones 21)).cfg = true := by decide +kernel
theorem witness_ParametersAreFixedAndTheCursorFits :
    (nextOf (step ((block 31 (ones 31)).setRequests [.perform .crcRead]))).map (fun s => (s.wr, wrWidth s.cfg.cap)) =
      some (31, 5) := by decide +kernel

end Sys2Proof.Tests
end

section
/-! PROOFS. The statements of the family `10_state`: what start-up leaves, what an operation touches, what a step keeps.
First what an instruction can do, once; then the invariant's own rules, one per update; then the statements. -/

namespace Sys2Proof.Machine

/-! What an instruction can do. -/

/-- An operation that may fault answers a next state only where it completed. -/
theorem toResult_map_eq_next {α : Type} {x : OrFault α} {g : α → State} {t : State}
    (h : OrFault.toResult (x.map g) = .next t) : ∃ a, x = .ok a ∧ t = g a := by
  cases x with
  | error f => cases h
  | ok a => cases h; exact ⟨a, rfl, rfl⟩

/-- Everything an operation that answers a next state can have done (R39), the three that write BUF first. -/
theorem exec_operation_cases {i : Instr} {s t : State} (hi : i.frameParts = none) (h : exec i s = .next t) :
    (∃ b u, i = .push b ∧ pushBytes s b = .ok u ∧ t = u.respond .none) ∨
    (∃ u fs, i = .drain ∧ drainFrames s = .ok (u, fs) ∧ t = u.respond (.frames fs)) ∨
    (i = .reset ∧ t = (s.discard.setCrc crcInitial).respond .none) ∨
    (i = .crcInit ∧ t = (s.setCrc crcInitial).respond .none) ∨
    (∃ b, i = .crcUpdate b ∧ t = (s.setCrc (crcStep s.crc b)).respond .none) ∨
    (i = .crcRead ∧ t = s.respond (.byte s.crc)) ∨
    (∃ c p, i = .encode c p ∧ p.length ≤ maxPayload ∧ t = s.respond (.bytes (encodeFrame c p))) ∨
    (∃ bs, i = .decode bs ∧ beginsWithHeader bs = true ∧ t = s.respond (.decoded (decodeFrame bs))) := by
  cases i with
  | reset => cases h; simp
  | crcInit => cases h; simp
  | crcUpdate b => cases h; simp
  | crcRead => cases h; simp
  | encode c p =>
    simp only [exec, execEncode] at h
    split at h <;> cases h
    simpa
  | decode bs =>
    simp only [exec, execDecode] at h
    split at h <;> cases h
    simpa
  | push b =>
    obtain ⟨u, hu, rfl⟩ := toResult_map_eq_next h
    simp [hu]
  | drain =>
    obtain ⟨⟨u, fs⟩, hu, rfl⟩ := toResult_map_eq_next h
    simp [hu]
  | _ => cases hi

/-- Everything a wire frame that reaches the device can do: it is applied, or dropped (R94). -/
theorem receiveFrame_cases {c k : Byte} {p : List Byte} {s t : State} (h : receiveFrame c p k s = .next t) :
    (framePasses c p k = true ∧ t = (s.setEnv (s.env.applyCommand c p)).respond .none) ∨
    (framePasses c p k = false ∧ t = s.respond .none) := by
  cases hp : framePasses c p k with
  | true => rw [receiveFrame_of_passes hp] at h; cases h; exact .inl ⟨rfl, rfl⟩
  | false => rw [receiveFrame_of_dropped hp] at h; cases h; exact .inr ⟨rfl, rfl⟩

@[simp] theorem discard_env (s : State) : s.discard.env = s.env := rfl
@[simp] theorem discard_cfg (s : State) : s.discard.cfg = s.cfg := rfl
@[simp] theorem discard_requests (s : State) : s.discard.requests = s.requests := rfl

/-- What each operation leaves alone (R10, R13): outside RESET and the CRC8 writes the CRC register, outside RESET, PUSH
and DRAIN the buffer and its cursor, and in every case all that is not the block's. -/
theorem exec_operation_same {i : Instr} {s t : State} (hi : i.frameParts = none) (h : exec i s = .next t) :
    t.env = s.env ∧ t.cfg = s.cfg ∧ t.requests = s.requests ∧
    (i ≠ .reset → i ≠ .crcInit → (∀ b, i ≠ .crcUpdate b) → t.crc = s.crc) ∧
    (i ≠ .reset → (∀ b, i ≠ .push b) → i ≠ .drain → t.buf = s.buf ∧ t.wr = s.wr) := by
  rcases exec_operation_cases hi h with ⟨b, u, rfl, hu, rfl⟩ | ⟨u, fs, rfl, hu, rfl⟩ | ⟨rfl, rfl⟩ | ⟨rfl, rfl⟩ |
    ⟨b, rfl, rfl⟩ | ⟨rfl, rfl⟩ | ⟨c, p, rfl, _, rfl⟩ | ⟨bs, rfl, _, rfl⟩
  · obtain ⟨henv, hcfg, hreq, hcrc⟩ := pushBytes_same hu
    simp [henv, hcfg, hreq, hcrc]
  · obtain ⟨henv, hcfg, hreq, hcrc⟩ := drainFrames_same hu
    simp [henv, hcfg, hreq, hcrc]
  all_goals simp

/-! The parameters (R16). -/

theorem receiveFrame_cfg {c k : Byte} {p : List Byte} {s t : State} (h : receiveFrame c p k s = .next t) :
    t.cfg = s.cfg := by
  rcases receiveFrame_cases h with ⟨_, rfl⟩ | ⟨_, rfl⟩ <;> rfl

theorem exec_cfg {i : Instr} {s t : State} (h : exec i s = .next t) : t.cfg = s.cfg := by
  cases hi : i.frameParts with
  | none =>
    obtain ⟨-, hcfg, -⟩ := exec_operation_same hi h
    exact hcfg
  | some x => exact receiveFrame_cfg (exec_frame hi s ▸ h)

theorem receiveBytes_cfg {b : List Byte} {s t : State} (h : receiveBytes b s = .ok t) : t.cfg = s.cfg := by
  obtain ⟨s1, s2, fs, h1, h2, rfl⟩ := receiveBytes_cases h
  obtain ⟨-, hpush, -⟩ := pushBytes_same h1
  obtain ⟨-, hdrain, -⟩ := drainFrames_same h2
  exact hdrain.trans hpush

theorem environmentAction_cfg {a : EnvAction} {s t : State} (h : environmentAction a s = .next t) : t.cfg = s.cfg := by
  cases a with
  | receive b =>
    obtain ⟨u, hu, rfl⟩ := toResult_map_eq_next h
    simpa using receiveBytes_cfg hu
  | _ => cases h; rfl

/-- No step changes the parameters (R16). -/
theorem step_cfg {s t : State} (h : step s = .next t) : t.cfg = s.cfg := by
  rcases step_cases s with ⟨_, hs⟩ | ⟨_, _, hs⟩ | ⟨i, rest, _, _, hs⟩ | ⟨a, rest, _, _, hs⟩ <;> rw [hs] at h
  · cases h
  · cases h; rfl
  · simpa using exec_cfg h
  · simpa using environmentAction_cfg h

/-! The environment's invariant through the steps of the Control Loop. -/

theorem legal_iff (c : Config) :
    c.legal = true ↔ 21 ≤ c.cap ∧ c.defaultGain.toNat ≤ 100 ∧ c.servoMinUs ≤ c.servoMaxUs := by
  simp only [Config.legal, Bool.and_eq_true, decide_eq_true_eq, and_assoc]
  rw [maxFrame_eq]

@[simp] theorem ok_setLoop (c : Config) (e : Env) (l : LoopState) : (e.setLoop l).ok c = e.ok c := rfl
@[simp] theorem ok_transmit (c : Config) (e : Env) (bs : List Byte) : (e.transmit bs).ok c = e.ok c := rfl

/-- A timeout relaxes the actuator of the device that it disables, and its fault code is one of the two (R99, R101). -/
theorem ok_checkTimeout {c : Config} {e : Env} (h : e.ok c = true) : (e.checkTimeout c).ok c = true := by
  obtain ⟨hgain, -, -⟩ := (ok_iff c e).1 h
  by_cases ht : e.timedOut c = true
  · simp only [Env.checkTimeout, Env.evaluateTimeout, ht, if_true, ok_transmit]
    exact (ok_iff _ _).2 ⟨hgain, fun us hu => by simp at hu, .inr rfl⟩
  · simpa [Env.checkTimeout, Env.evaluateTimeout, ht] using h

/-- Only an enabled device drives, and what it writes lies in the range (R96, R101 step 4). -/
theorem ok_actuate {c : Config} {e : Env} (hc : c.servoMinUs ≤ c.servoMaxUs) (h : e.ok c = true) :
    (e.actuate c).ok c = true := by
  unfold Env.actuate
  split
  next hen =>
    obtain ⟨hgain, -, hfault⟩ := (ok_iff c e).1 h
    refine (ok_iff _ _).2 ⟨hgain, fun us hu => ⟨hen, ?_⟩, hfault⟩
    cases hu
    exact computeActuatorMicroseconds_range c e.device hc
  next => exact h

theorem ok_emitTelemetry (c : Config) (e : Env) : (e.emitTelemetry c).ok c = e.ok c := by
  unfold Env.emitTelemetry; split <;> simp

theorem ok_emitHeartbeat (c : Config) (e : Env) : (e.emitHeartbeat c).ok c = e.ok c := by
  unfold Env.emitHeartbeat; split <;> simp

theorem ok_countLoop (c : Config) (e : Env) : e.countLoop.ok c = e.ok c := by
  simp only [Env.countLoop]; split <;> simp

/-! The invariant, one rule per update of the state. -/

@[simp] theorem inv_respond (s : State) (r : Response) : (s.respond r).Inv ↔ s.Inv := Iff.rfl
@[simp] theorem inv_setRequests (s : State) (rs : List Request) : (s.setRequests rs).Inv ↔ s.Inv := Iff.rfl
@[simp] theorem inv_setCrc (s : State) (v : Byte) : (s.setCrc v).Inv ↔ s.Inv := Iff.rfl

theorem State.Inv.legal {s : State} (h : s.Inv) : s.cfg.legal = true := h.1
theorem State.Inv.blockOk {s : State} (h : s.Inv) : s.blockOk = true := h.2.1
theorem State.Inv.envOk {s : State} (h : s.Inv) : s.env.ok s.cfg = true := h.2.2

theorem State.Inv.setEnv {s : State} {e : Env} (h : s.Inv) (he : e.ok s.cfg = true) : (s.setEnv e).Inv :=
  ⟨h.legal, h.blockOk, he⟩

/-- An operation on BUF and WR keeps the invariant where it keeps the block's. -/
theorem State.Inv.of_same {s t : State} (h : s.Inv) (henv : t.env = s.env) (hcfg : t.cfg = s.cfg)
    (hb : t.blockOk = true) : t.Inv :=
  ⟨by rw [hcfg, h.legal], hb, by rw [henv, hcfg, h.envOk]⟩

theorem State.Inv.cap_ge {s : State} (h : s.Inv) : 21 ≤ s.cfg.cap := ((legal_iff _).1 h.legal).1

theorem State.Inv.servo_le {s : State} (h : s.Inv) : s.cfg.servoMinUs ≤ s.cfg.servoMaxUs := by
  obtain ⟨-, -, hservo⟩ := (legal_iff _).1 h.legal
  exact hservo

/-- The empty buffer meets the block's invariant. -/
theorem discard_blockOk (s : State) : s.discard.blockOk = true := by
  rw [discard_eq]
  exact (blockOk_iff _).2 ⟨[], rfl, Nat.zero_le _⟩

theorem State.Inv.discard {s : State} (h : s.Inv) : s.discard.Inv := h.of_same rfl rfl (discard_blockOk s)

theorem State.Inv.pushBytes {s t : State} {b : List Byte} (h : s.Inv) (hp : pushBytes s b = .ok t) : t.Inv := by
  obtain ⟨henv, hcfg, -, -⟩ := pushBytes_same hp
  obtain ⟨u, hu, hub⟩ := pushBytes_blockOk b (by have := h.cap_ge; omega) h.blockOk
  obtain rfl : t = u := by simpa [hp] using hu
  exact h.of_same henv hcfg hub

theorem State.Inv.drainFrames {s t : State} {fs : List Frame} (h : s.Inv) (hd : drainFrames s = .ok (t, fs)) :
    t.Inv := by
  obtain ⟨henv, hcfg, -, -⟩ := drainFrames_same hd
  obtain ⟨u, gs, hu, hub⟩ := drainFrames_blockOk h.blockOk
  obtain ⟨rfl, -⟩ : t = u ∧ fs = gs := by simpa [hd] using hu
  exact h.of_same henv hcfg hub

/-! The invariant through an instruction, an action of the environment, a step. -/

theorem State.Inv.receiveFrame {s t : State} {c k : Byte} {p : List Byte} (h : s.Inv)
    (hr : receiveFrame c p k s = .next t) : t.Inv := by
  rcases receiveFrame_cases hr with ⟨_, rfl⟩ | ⟨_, rfl⟩
  · exact h.setEnv (ok_applyCommand h.envOk c p)
  · exact h

theorem State.Inv.exec {s t : State} {i : Instr} (h : s.Inv) (hx : exec i s = .next t) : t.Inv := by
  cases hi : i.frameParts with
  | some x => exact h.receiveFrame (exec_frame hi s ▸ hx)
  | none =>
    rcases exec_operation_cases hi hx with ⟨_, _, _, hu, rfl⟩ | ⟨_, _, _, hu, rfl⟩ | ⟨_, rfl⟩ | ⟨_, rfl⟩ |
      ⟨_, _, rfl⟩ | ⟨_, rfl⟩ | ⟨_, _, _, _, rfl⟩ | ⟨_, _, _, rfl⟩
    · simpa using h.pushBytes hu
    · simpa using h.drainFrames hu
    · simpa using h.discard
    all_goals simpa using h

theorem State.Inv.receiveBytes {s t : State} {b : List Byte} (h : s.Inv) (hr : receiveBytes b s = .ok t) : t.Inv := by
  obtain ⟨s1, s2, fs, hpush, hdrain, rfl⟩ := receiveBytes_cases hr
  have h2 : s2.Inv := (h.pushBytes hpush).drainFrames hdrain
  exact h2.setEnv (ok_applyFrames fs h2.envOk)

theorem State.Inv.environmentAction {s t : State} {a : EnvAction} (h : s.Inv)
    (ha : environmentAction a s = .next t) : t.Inv := by
  have he : s.env.ok s.cfg = true := h.envOk
  cases a with
  | receive b =>
    obtain ⟨u, hu, rfl⟩ := toResult_map_eq_next ha
    simpa using h.receiveBytes hu
  | checkTimeout => cases ha; exact h.setEnv (ok_checkTimeout he)
  | sampleAngle raw => cases ha; exact h.setEnv he
  | actuate => cases ha; exact h.setEnv (ok_actuate h.servo_le he)
  | emitTelemetry => cases ha; exact h.setEnv ((ok_emitTelemetry _ _).trans he)
  | emitHeartbeat => cases ha; exact h.setEnv ((ok_emitHeartbeat _ _).trans he)
  | countLoop => cases ha; exact h.setEnv ((ok_countLoop _ _).trans he)
  | pace => cases ha; exact h.setEnv he
  | advanceClock ms => cases ha; exact h.setEnv he
  | iteration inp => cases ha; exact h.setEnv he

theorem State.Inv.step {s t : State} (h : s.Inv) (hs : step s = .next t) : t.Inv := by
  rcases step_cases s with ⟨_, hc⟩ | ⟨_, _, hc⟩ | ⟨i, rest, _, _, hc⟩ | ⟨a, rest, _, _, hc⟩ <;> rw [hc] at hs
  · cases hs
  · cases hs; exact h
  · exact State.Inv.exec ((inv_setRequests s rest).2 h) hs
  · exact State.Inv.environmentAction ((inv_setRequests s rest).2 h) hs

/-! What the invariant gives. -/

theorem State.Inv.buf_wf {s : State} (h : s.Inv) : s.buf.wf = true := by
  obtain ⟨bs, hs, -⟩ := (blockOk_iff s).1 h.blockOk
  rw [hs]
  exact Memory.ofBytesFrom_wf bs 0

theorem State.Inv.wr_le {s : State} (h : s.Inv) : s.wr ≤ s.cfg.cap := by
  obtain ⟨bs, hs, hl⟩ := (blockOk_iff s).1 h.blockOk
  rw [hs]
  exact hl

/-- WR fits `ceil(log2(CAP + 1))` bits (R5, R12). -/
theorem State.Inv.wr_lt {s : State} (h : s.Inv) : s.wr < 2 ^ wrWidth s.cfg.cap :=
  h.wr_le.trans_lt Nat.lt_log2_self

/-- Right after reset BUF is empty, the gain is the legal default, nothing is driven and there is no fault. -/
theorem inv_resetOf {c : Config} (h : c.legal = true) : (State.resetOf c).Inv := by
  obtain ⟨-, hgain, -⟩ := (legal_iff c).1 h
  refine ⟨h, (blockOk_iff _).2 ⟨[], rfl, Nat.zero_le _⟩, (ok_iff _ _).2 ⟨hgain, fun us hu => ?_, .inl rfl⟩⟩
  cases hu

end Sys2Proof.Machine

namespace Sys2Proof.Proofs

open Sys2Proof.Machine

/-- Settles O58: the invariant through every instruction and every action of the environment. -/
theorem everyStepKeepsTheInvariant : Obligations.EveryStepKeepsTheInvariant :=
  fun _ _ h hs => h.step hs

/-- Settles O48, by what each operation can have done. -/
theorem operationsTouchOnlyTheirOwnState : Obligations.OperationsTouchOnlyTheirOwnState :=
  fun _ _ _ hi h => exec_operation_same hi h

/-- Settles O60: the parameters from every state; the canonical form and the width from the invariant, before the step
and after it. -/
theorem parametersAreFixedAndTheCursorFits : Obligations.ParametersAreFixedAndTheCursorFits :=
  fun _ _ hs => ⟨step_cfg hs, fun h => ⟨h.buf_wf, (h.step hs).buf_wf, (h.step hs).wr_lt⟩⟩

/-- Settles O18: start-up sets these fields outright. -/
theorem startupValuesAreTheSpecified : Obligations.StartupValuesAreTheSpecified :=
  fun _ => ⟨rfl, rfl, rfl, rfl⟩

/-- Settles O53: the refusal, the idle step, an instruction, and each action of the Control Loop in turn. -/
theorem stepPerformsWhatIsAskedFirst : Obligations.StepPerformsWhatIsAskedFirst :=
  fun _ _ => ⟨step_small, step_idle, fun _ => step_perform, step_environment, fun _ => step_environment,
    step_environment, step_environment, step_environment, step_environment, step_environment,
    fun _ => step_environment⟩

/-- Settles O57: every legal configuration, and the sample one is legal. -/
theorem resetMeetsTheInvariant : Obligations.ResetMeetsTheInvariant :=
  ⟨fun _ => inv_resetOf, inv_resetOf (by decide)⟩

end Sys2Proof.Proofs
end

section
/-! PROOFS. The statements of the family `20_memory`: no access leaves BUF, and a stream may come in any bursts. First
what completes from a legal state: PUSH, DRAIN, an arrival of bytes, a step; then one burst and many; then the
statements. -/

namespace Sys2Proof.Machine

/-! No access leaves BUF (R28, R74 (e)). -/

/-- An operation that completed answers a next state. -/
theorem toResult_map_of_ok {α : Type} {x : OrFault α} {a : α} (g : α → State) (h : x = .ok a) :
    OrFault.toResult (x.map g) = .next (g a) := by
  rw [h]; rfl

/-- PUSH completes from a legal state: it stores at `WR < CAP` only (R28, R65). -/
theorem State.Inv.pushBytes_completes {s : State} (h : s.Inv) (b : List Byte) :
    ∃ t, Machine.pushBytes s b = .ok t := by
  have hcap := h.cap_ge
  obtain ⟨t, ht, -⟩ := pushBytes_blockOk b (by omega) h.blockOk
  exact ⟨t, ht⟩

/-- DRAIN completes from a legal state: it reads below WR only (R28, R74). -/
theorem State.Inv.drainFrames_completes {s : State} (h : s.Inv) :
    ∃ t fs, Machine.drainFrames s = .ok (t, fs) := by
  obtain ⟨t, fs, ht, -⟩ := drainFrames_blockOk h.blockOk
  exact ⟨t, fs, ht⟩

/-- An arrival of bytes completes from a legal state: its PUSH keeps the invariant for its DRAIN (R101 step 1). -/
theorem State.Inv.receiveBytes_completes {s : State} (h : s.Inv) (b : List Byte) :
    ∃ t, Machine.receiveBytes b s = .ok t := by
  obtain ⟨s1, hpush⟩ := h.pushBytes_completes b
  obtain ⟨s2, fs, hdrain⟩ := (h.pushBytes hpush).drainFrames_completes
  exact ⟨s2.setEnv (fs.foldl Env.applyFrame s2.env), by simp only [Machine.receiveBytes, hpush, hdrain]⟩

theorem State.Inv.exec_ne_fault {s : State} (h : s.Inv) (i : Instr) (f : Fault) : Machine.exec i s ≠ .fault f := by
  cases i with
  | push b =>
    obtain ⟨t, ht⟩ := h.pushBytes_completes b
    simp [Machine.exec, execPush, toResult_map_of_ok _ ht]
  | drain =>
    obtain ⟨t, fs, ht⟩ := h.drainFrames_completes
    simp [Machine.exec, execDrain, toResult_map_of_ok _ ht]
  | encode c p => simp only [Machine.exec, execEncode]; split <;> simp
  | decode bs => simp only [Machine.exec, execDecode]; split <;> simp
  | _ => intro hf; cases hf

theorem State.Inv.environmentAction_ne_fault {s : State} (h : s.Inv) (a : EnvAction) (f : Fault) :
    Machine.environmentAction a s ≠ .fault f := by
  cases a with
  | receive b =>
    obtain ⟨t, ht⟩ := h.receiveBytes_completes b
    simp [Machine.environmentAction, toResult_map_of_ok _ ht]
  | _ => intro hf; cases hf

theorem State.Inv.step_ne_fault {s : State} (h : s.Inv) (f : Fault) : Machine.step s ≠ .fault f := by
  rcases step_cases s with ⟨_, hs⟩ | ⟨_, _, hs⟩ | ⟨i, rest, _, _, hs⟩ | ⟨a, rest, _, _, hs⟩ <;> rw [hs]
  · simp
  · simp
  · exact ((inv_setRequests s rest).2 h).exec_ne_fault i f
  · exact ((inv_setRequests s rest).2 h).environmentAction_ne_fault a f

/-! A stream in bursts (R25, R27). -/

/-- What a DRAIN of these bytes leaves in BUF (R73): the bytes from the scan's end on. -/
def drainRest (data : List Byte) : List Byte := data.drop (scan data).pos

theorem drainRest_length_le (data : List Byte) : (drainRest data).length ≤ data.length := by
  simp [drainRest]

/-- Later bytes may as well come behind what an earlier DRAIN left. -/
theorem drainRest_append (a b : List Byte) : drainRest (a ++ b) = drainRest (drainRest a ++ b) := by
  obtain ⟨-, hpos⟩ := scan_append a b
  simp only [drainRest]
  rw [hpos, ← List.drop_drop, List.drop_append_of_le_length (scan_pos_le a)]

/-- The frames of a stream: those of its first part, then those of what that left with the rest behind it (R25). -/
theorem scan_frames_append (a b : List Byte) :
    (scan (a ++ b)).frames = (scan a).frames ++ (scan (drainRest a ++ b)).frames :=
  (scan_append a b).1

theorem exec_drain_withBytes (s : State) (bs : List Byte) (h : bs.length ≤ s.cfg.cap) :
    exec .drain (s.withBytes bs) = .next ((s.withBytes (drainRest bs)).respond (.frames (scan bs).frames)) :=
  execDrain_withBytes s bs h

/-- A burst that fits is appended, an empty one to a buffer of no bytes too (R65, R66 (a)). -/
theorem pushBytes_of_fits (s : State) (bs b : List Byte) (h : bs.length + b.length ≤ s.cfg.cap) :
    pushBytes (s.withBytes bs) b = .ok (s.withBytes (bs ++ b)) := by
  cases b with
  | nil =>
    have hle : ¬ s.cfg.cap < bs.length := by simpa using h
    simp [pushBytes, storeBytes, hle]
  | cons x b =>
    have hcap : 0 < s.cfg.cap := by simp at h; omega
    rw [pushBytes_withBytes s bs (x :: b) hcap (by omega), if_pos h]

theorem exec_push_of_fits (s : State) (bs b : List Byte) (h : bs.length + b.length ≤ s.cfg.cap) :
    exec (.push b) (s.withBytes bs) = .next ((s.withBytes (bs ++ b)).respond .none) :=
  toResult_map_of_ok _ (pushBytes_of_fits s bs b h)

/-- No operation on BUF reads the response field, so it may be set after BUF as well as before. -/
theorem respond_withBytes (s : State) (bs : List Byte) (r : Response) :
    (s.withBytes bs).respond r = (s.respond r).withBytes bs := rfl

@[simp] theorem respond_respond (s : State) (q r : Response) : (s.respond q).respond r = s.respond r := rfl

/-- One burst that fits, then a DRAIN: the DRAIN sees what was held and the burst behind it (R27). -/
theorem execAll_push_drain (s : State) (bs b : List Byte) (h : bs.length + b.length ≤ s.cfg.cap) :
    execAll [.push b, .drain] (s.withBytes bs) =
      .next ((s.withBytes (drainRest (bs ++ b))).respond (.frames (scan (bs ++ b)).frames)) := by
  have hdrain := exec_drain_withBytes (s.respond .none) (bs ++ b) (by simpa using h)
  simp only [execAll, exec_push_of_fits s bs b h, respond_withBytes, hdrain, respond_respond]

/-- The first burst of a stream, then the others on what its DRAIN left. -/
theorem deliverChunks_cons (s : State) (bs b : List Byte) (chunks : List (List Byte))
    (h : bs.length + b.length ≤ s.cfg.cap) :
    deliverChunks (b :: chunks) (s.withBytes bs) =
      (deliverChunks chunks ((s.respond (.frames (scan (bs ++ b)).frames)).withBytes (drainRest (bs ++ b)))).map
        fun p => (p.1, (scan (bs ++ b)).frames ++ p.2) := by
  simp only [deliverChunks, execAll_push_drain s bs b h, respond_withBytes, withBytes_response, respond_response]

/-- A stream that fits, in one burst or more: the frames of one scan of the whole and the bytes that scan leaves. The
response in the end state is the last DRAIN's alone, so it is left open. -/
theorem deliverChunks_withBytes (chunks : List (List Byte)) :
    ∀ (s : State) (bs b : List Byte), bs.length + (b :: chunks).flatten.length ≤ s.cfg.cap →
      ∃ r, deliverChunks (b :: chunks) (s.withBytes bs) =
        some ((s.withBytes (drainRest (bs ++ (b :: chunks).flatten))).respond r,
          (scan (bs ++ (b :: chunks).flatten)).frames) := by
  induction chunks with
  | nil =>
    intro s bs b h
    rw [deliverChunks_cons s bs b [] (by simpa using h)]
    exact ⟨.frames (scan (bs ++ b)).frames, by simp [deliverChunks, respond_withBytes]⟩
  | cons c chunks ih =>
    intro s bs b h
    simp only [List.flatten_cons, List.length_append] at h
    have hrest := drainRest_length_le (bs ++ b)
    rw [List.length_append] at hrest
    obtain ⟨r, hr⟩ := ih (s.respond (.frames (scan (bs ++ b)).frames)) (drainRest (bs ++ b)) c
      (by simp only [List.flatten_cons, List.length_append, respond_cfg]; omega)
    refine ⟨r, ?_⟩
    rw [deliverChunks_cons s bs b _ (by omega), hr, List.flatten_cons (l := b), ← List.append_assoc bs b,
      drainRest_append (bs ++ b), scan_frames_append (bs ++ b)]
    rfl

end Sys2Proof.Machine

namespace Sys2Proof.Proofs

open Sys2Proof.Machine

/-- Settles O59: what completes on BUF from a legal state, through every instruction and every action. -/
theorem noStepFromALegalStateFaults : Obligations.NoStepFromALegalStateFaults :=
  fun _ f h => h.step_ne_fault f

/-- Settles O38, by induction on the bursts: a scan may stop after any of them and go on from what it left. -/
theorem burstsDeliverWhatTheWholeStreamDelivers : Obligations.BurstsDeliverWhatTheWholeStreamDelivers := by
  intro s bs chunks hne hfit
  obtain ⟨b, chunks, rfl⟩ := List.exists_cons_of_ne_nil hne
  obtain ⟨r, hr⟩ := deliverChunks_withBytes chunks s bs b hfit
  exact ⟨_, _, hr, exec_drain_withBytes s _ (by simpa using hfit)⟩

end Sys2Proof.Proofs
end

section
/-! PROOFS. The statements of the family `30_encoding`: the command codes, the instruction decoder against the encoder
both ways and on what it rejects, the 16-bit values of payloads. First the laws of the command codes, the encoder, the
decoder and the 16-bit operands; then the statements. -/

namespace Sys2Proof

/-! The command codes (R34). -/

/-- A CMD byte selects exactly the command whose code it is. -/
theorem Command.ofCode_eq_some_iff (b : Byte) (c : Command) : Command.ofCode b = some c ↔ b = c.code :=
  ⟨fun h => (Command.ofCode_some h).symm, fun h => h ▸ Command.ofCode_code c⟩

/-! The encoder (R30). -/

/-- What has an encoding is a frame, and its encoding is the wire frame of its parts. -/
theorem encode_eq_some_iff (i : Instr) (bs : List Byte) :
    encode i = some bs ↔ ∃ c p k, i.frameParts = some (c, p, k) ∧ wireFrame c p k = bs := by
  simp [encode]

theorem encode_ofFrame (c : Byte) (p : List Byte) (k : Byte) : encode (Instr.ofFrame c p k) = some (wireFrame c p k) :=
  (encode_eq_some_iff _ _).2 ⟨c, p, k, Instr.frameParts_ofFrame c p k, rfl⟩

/-! The decoder, one equation per shape of the bytes (R30, R32). -/

theorem decode_noHeader {a b : Byte} {r : List Byte} (h : ¬ (a = sof0 ∧ b = sof1)) :
    decode (a :: b :: r) = .error .badHeader := if_neg h

section
variable (c : Byte) {len : Byte} {r : List Byte}

/-- A LEN byte above 16: a bad length, however many bytes follow (R57). -/
theorem decode_badLength (h : maxPayload < len.toNat) : decode (sof0 :: sof1 :: c :: len :: r) = .error .badLength := by
  simp [decode, h]

/-- A legal LEN and no CRC byte after LEN bytes: truncated (R58). -/
theorem decode_incomplete (h : len.toNat ≤ maxPayload) (hr : r.length ≤ len.toNat) :
    decode (sof0 :: sof1 :: c :: len :: r) = .error .truncated := by
  simp [decode, Nat.not_lt.2 h, List.drop_eq_nil_of_le hr]

/-- A legal LEN and more than LEN bytes after it: a frame (R30). -/
theorem decode_complete (h : len.toNat ≤ maxPayload) (hr : len.toNat < r.length) :
    decode (sof0 :: sof1 :: c :: len :: r) =
      .ok (Instr.ofFrame c (r.take len.toNat) r[len.toNat], r.drop (len.toNat + 1)) := by
  simp only [decode, and_self, if_true, if_neg (Nat.not_lt.2 h), List.drop_eq_getElem_cons hr]

end

end Sys2Proof

namespace Sys2Proof.Machine

/-! The 16-bit values of payloads (R35). -/

theorem le16_toNat (b0 b1 : Byte) : (le16 b0 b1).toNat = b0.toNat + 256 * b1.toNat := by
  simp [le16]
  omega

/-- The two bytes of a value, low byte first, put the value together again. -/
theorem le16_extractLsb (w : Word16) : le16 (w.extractLsb' 0 8) (w.extractLsb' 8 8) = w := by
  apply BitVec.eq_of_toNat_eq
  rw [le16_toNat]
  simp [BitVec.extractLsb'_toNat, Nat.shiftRight_eq_div_pow]
  omega

theorem wordOperand_le16Bytes (w : Word16) (rest : List Byte) : wordOperand (le16Bytes w ++ rest) = some w :=
  congrArg some (le16_extractLsb w)

theorem asS16_eq_toInt (w : Word16) : asS16 w = w.toInt := by
  simp only [asS16, BitVec.toInt_eq_toNat_cond]
  split <;> split <;> omega

end Sys2Proof.Machine

namespace Sys2Proof.Proofs

open Sys2Proof.Machine

/-- Settles O3: the bytes are the wire frame of the instruction's parts, and those parts make the instruction again. -/
theorem decodeOfEncodeIsTheInstruction : Obligations.DecodeOfEncodeIsTheInstruction := by
  intro i bs t hs he
  obtain ⟨c, p, k, hparts, rfl⟩ := (encode_eq_some_iff i bs).1 he
  rw [decode_wireFrame c p k t (Instr.payload_le_of_shapeOk hs hparts), Instr.ofFrame_of_frameParts hs hparts]

/-- Settles O4: what the decoder accepts is a wire frame followed by the rest. -/
theorem encodeOfDecodeIsTheBytes : Obligations.EncodeOfDecodeIsTheBytes := by
  intro i bs t h
  obtain ⟨c, p, k, hp, rfl, rfl⟩ := decode_ok h
  exact ⟨Instr.shapeOk_ofFrame c p k hp, wireFrame c p k, encode_ofFrame c p k, rfl⟩

/-- Settles O2: a byte selects the command whose code it is, and these are the six codes. -/
theorem exactlySixCommandCodesAreAssigned : Obligations.ExactlySixCommandCodesAreAssigned := by
  intro b c
  rw [Command.ofCode_eq_some_iff]
  cases c <;> simp [Command.code]

/-- Settles O5, by the shapes the decoder tells apart: under two bytes, no header, the header with CMD or LEN missing,
and the header with both, where LEN decides first. -/
theorem decoderRejectsByName : Obligations.DecoderRejectsByName := by
  intro bs
  match bs with
  | [] => simp [decode]
  | [_] => simp [decode]
  | a :: b :: r =>
    by_cases hdr : a = sof0 ∧ b = sof1
    · obtain ⟨rfl, rfl⟩ := hdr
      match r with
      | [] => simp [decode, beginsWithHeader, sof0, sof1]
      | [_] => simp [decode, beginsWithHeader, sof0, sof1]
      | c :: len :: r =>
        rcases Nat.lt_or_ge 16 len.toNat with hlong | hlegal
        · rw [decode_badLength c hlong]
          simp [beginsWithHeader, sof0, sof1, hlong]
        · rcases Nat.lt_or_ge len.toNat r.length with hall | hshort
          · rw [decode_complete c hlegal hall]
            simp [beginsWithHeader, sof0, sof1, hlegal, hall]
          · rw [decode_incomplete c hlegal hshort]
            simp [beginsWithHeader, sof0, sof1, hlegal, hshort]
    · rw [decode_noHeader hdr]
      simp only [sof0, sof1, BitVec.ofNat_eq_ofNat] at hdr
      rcases not_and_or.1 hdr with h | h <;> simp [beginsWithHeader, sof0, sof1, h]

/-- Settles O7: the bytes put together as a number, then the sign's two ranges. -/
theorem payloadWordsAreLittleEndian : Obligations.PayloadWordsAreLittleEndian :=
  ⟨wordOperand_le16Bytes, le16_toNat, asS16_eq_toInt, fun _ _ => ⟨rfl, rfl⟩⟩

/-- Settles O1: each word is a wire frame with nothing after it (R30). -/
theorem wordsOfTheTableDecodeToTheirInstruction : Obligations.WordsOfTheTableDecodeToTheirInstruction :=
  ⟨decode_wireFrame 0x01 [0xF4, 0x01] 0x87 [] (by decide),
    decode_wireFrame 0x02 [0x32] 0x5D [] (by decide),
    decode_wireFrame 0x03 [0x01] 0xAF [] (by decide),
    decode_wireFrame 0x10 [0xFE, 0xFF, 0xE8, 0x03] 0x1F [] (by decide),
    decode_wireFrame 0x11 [0x01] 0xDB [] (by decide),
    decode_wireFrame 0xF0 [] 0x14 [] (by decide),
    decode_wireFrame 0x7E [] 0x74 [] (by decide)⟩

end Sys2Proof.Proofs
end

section
/-! PROOFS. The statements of the family `40_crc8`: the step and its equivalent forms, what `crc8` keeps of a sequence,
the streaming unit. First the CRC step's two symmetries, its fold over a sequence, its three forms and the runs of the
unit; then the statements. -/

namespace Sys2Proof

/-! The step (R40). -/

theorem crcStep_comm (c b : Byte) : crcStep c b = crcStep b c := by
  rw [crcStep, BitVec.xor_comm, ← crcStep]

/-- The step is one-to-one in the byte as well, since register and byte play the same part in it. -/
theorem crcStep_injective_byte {c x y : Byte} (h : crcStep c x = crcStep c y) : x = y := by
  rw [crcStep_comm c x, crcStep_comm c y] at h
  exact crcStep_injective h

/-- A byte equal to the register clears it. -/
@[simp] theorem crcStep_self (c : Byte) : crcStep c c = 0 := by
  rw [crcStep_eq, BitVec.xor_self]
  rfl

theorem crcShift_eq_getLsbD (r : Byte) : crcShift r = if r.getLsbD 7 then (r <<< 1) ^^^ 0x07 else r <<< 1 := by
  rw [crcShift, BitVec.msb_eq_getLsbD_last]
  rfl

theorem crcShifts_eq_iterate (n : Nat) : crcShifts n = crcShift^[n] := by
  induction n with
  | zero => rfl
  | succ n ih => funext r; rw [crcShifts, ih, Function.iterate_succ_apply]

/-! A sequence through the register (R44, R46). -/

/-- Two sequences of one length, each through its own register, add up bit by bit (R46 (b)). -/
theorem foldl_crcStep_zipWith_xor (s : List Byte) : ∀ (t : List Byte) (c d : Byte), s.length = t.length →
    (List.zipWith (· ^^^ ·) s t).foldl crcStep (c ^^^ d) = s.foldl crcStep c ^^^ t.foldl crcStep d := by
  induction s with
  | nil =>
    intro t c d h
    rw [List.length_eq_zero_iff.1 h.symm]
    rfl
  | cons x s ih =>
    intro t c d h
    cases t with
    | nil => cases h
    | cons y t =>
      simp only [List.zipWith_cons_cons, List.foldl_cons, crcStep_xor]
      exact ih t _ _ (Nat.succ.inj h)

/-- Two registers that differ still differ after the same bytes. -/
theorem foldl_crcStep_injective (s : List Byte) : ∀ {c d : Byte},
    s.foldl crcStep c = s.foldl crcStep d → c = d := by
  induction s with
  | nil => exact id
  | cons x s ih => exact fun h => crcStep_injective (ih h)

/-- A leading zero byte leaves the register at its initial value, zero (R46 (d)). -/
theorem crc8_zero_cons (s : List Byte) : crc8 (0x00 :: s) = crc8 s :=
  congrArg (s.foldl crcStep) (crcStep_self crcInitial)

theorem crc8_replicate_zero (n : Nat) : crc8 (List.replicate n 0x00) = 0x00 := by
  induction n with
  | zero => rfl
  | succ n ih => rw [List.replicate_succ, crc8_zero_cons, ih]

/-- The residue (R46 (e)): the last byte meets a register equal to it. -/
theorem crc8_append_crc8 (s : List Byte) : crc8 (s ++ [crc8 s]) = 0x00 := by
  rw [crc8_append]
  exact crcStep_self (crc8 s)

/-- Sequences that differ in exactly one byte have different CRCs: the step tells the two bytes apart, and the bytes
after them keep the registers apart. -/
theorem crc8_single_byte_injective {pre post : List Byte} {x y : Byte}
    (h : crc8 (pre ++ x :: post) = crc8 (pre ++ y :: post)) : x = y := by
  simp only [crc8_append, List.foldl_cons] at h
  exact crcStep_injective_byte (foldl_crcStep_injective post h)

/-- A byte with one bit flipped is another byte. -/
theorem xor_bit_ne_self (b : Byte) {j : Nat} (hj : j < 8) : b ^^^ (1#8 <<< j) ≠ b := by
  intro h
  have hbit : (b ^^^ (1#8 <<< j)).getLsbD j = b.getLsbD j := by rw [h]
  simp [hj] at hbit

/-! The equivalent forms (R45). -/

/-- A form that, like the step, sees only `c ^ b` is the step if it agrees with it from the zero register: 256 values. -/
theorem eq_crcStep_of_zero {f : Byte → Byte → Byte} (hxor : ∀ c b, f c b = f 0 (c ^^^ b))
    (hzero : ∀ x, f 0 x = crcStep 0 x) (c b : Byte) : f c b = crcStep c b := by
  rw [hxor, hzero, ← crcStep_eq]

/-- One input bit is one shift of the register with the bit added on top. -/
theorem crcBit_eq_crcShift (c : Byte) (d : Bool) : crcBit c d = crcShift (c ^^^ (if d then 0x80 else 0)) := by
  cases d with
  | false => simp [crcBit, crcShift]
  | true =>
    have htop : (0x80#8).msb = true := rfl
    cases hc : c.msb <;> simp [crcBit, crcShift, BitVec.msb_xor, BitVec.shiftLeft_xor_distrib, hc, htop]

theorem crcBit_xor (c c' : Byte) (d d' : Bool) : crcBit (c ^^^ c') (d ^^ d') = crcBit c d ^^^ crcBit c' d' := by
  have hbit : (if d ^^ d' then 0x80 else 0 : Byte) = (if d then 0x80 else 0) ^^^ (if d' then 0x80 else 0) := by
    cases d <;> cases d' <;> rfl
  rw [crcBit_eq_crcShift, crcBit_eq_crcShift, crcBit_eq_crcShift, ← crcShift_xor, hbit]
  congr 1
  ac_rfl

/-- Any selection of a byte's bits goes through the register linearly. -/
theorem foldl_crcBit_xor (bits : List Nat) (b b' : Byte) : ∀ c c' : Byte,
    bits.foldl (fun r i => crcBit r ((b ^^^ b').getLsbD i)) (c ^^^ c') =
      bits.foldl (fun r i => crcBit r (b.getLsbD i)) c ^^^ bits.foldl (fun r i => crcBit r (b'.getLsbD i)) c' := by
  induction bits with
  | nil => intro c c'; rfl
  | cons i bits ih =>
    intro c c'
    simp only [List.foldl_cons]
    rw [BitVec.getLsbD_xor, crcBit_xor, ih]

theorem crcStepSerial_xor (c c' b b' : Byte) :
    crcStepSerial (c ^^^ c') (b ^^^ b') = crcStepSerial c b ^^^ crcStepSerial c' b' :=
  foldl_crcBit_xor _ b b' c c'

theorem crcStepSerial_self : ∀ c : Byte, crcStepSerial c c = 0 := by decide +kernel

/-- The byte may be added to the register beforehand: what the register holds and meets again gives nothing. -/
theorem crcStepSerial_eq_zero_xor (c b : Byte) : crcStepSerial c b = crcStepSerial 0 (c ^^^ b) := by
  have hb : b = c ^^^ (c ^^^ b) := by rw [← BitVec.xor_assoc, BitVec.xor_self, BitVec.zero_xor]
  calc crcStepSerial c b
      = crcStepSerial (c ^^^ 0) (c ^^^ (c ^^^ b)) := by rw [← hb]; simp
    _ = crcStepSerial 0 (c ^^^ b) := by rw [crcStepSerial_xor, crcStepSerial_self]; simp

theorem crcStepSerial_eq : ∀ c b : Byte, crcStepSerial c b = crcStep c b :=
  eq_crcStep_of_zero crcStepSerial_eq_zero_xor (by decide +kernel)

theorem crcStepParallel_eq : ∀ c b : Byte, crcStepParallel c b = crcStep c b :=
  eq_crcStep_of_zero (fun c b => by simp [crcStepParallel]) (by decide +kernel)

theorem crcStepTable_eq : ∀ c b : Byte, crcStepTable c b = crcStep c b :=
  eq_crcStep_of_zero (fun c b => by simp [crcStepTable]) (by decide +kernel)

end Sys2Proof

namespace Sys2Proof.Machine

/-! The streaming unit (R41 to R44). -/

theorem exec_crcInit (s : State) : exec .crcInit s = .next ((s.setCrc crcInitial).respond .none) := rfl

theorem exec_crcUpdate (b : Byte) (s : State) :
    exec (.crcUpdate b) s = .next ((s.setCrc (crcStep s.crc b)).respond .none) := rfl

theorem exec_crcRead (s : State) : exec .crcRead s = .next (s.respond (.byte s.crc)) := rfl

theorem execAll_cons_of_next {i : Instr} {s t : State} (h : exec i s = .next t) (is : List Instr) :
    execAll (i :: is) s = execAll is t := by
  rw [execAll, h]

theorem execAll_append_of_next {is : List Instr} : ∀ {s t : State}, execAll is s = .next t →
    ∀ js : List Instr, execAll (is ++ js) s = execAll js t := by
  induction is with
  | nil => intro s t h js; cases h; rfl
  | cons i is ih =>
    intro s t h js
    cases hi : exec i s with
    | next u =>
      rw [execAll_cons_of_next hi] at h
      rw [List.cons_append, execAll_cons_of_next hi, ih h]
    | fault f => rw [execAll, hi] at h; cases h
    | refused r => rw [execAll, hi] at h; cases h

/-- One UPDATE per byte folds the bytes into whatever the register held. Each UPDATE clears the response, so the run is
stated from a state without one, which the empty run keeps. -/
theorem execAll_crcUpdates (msg : List Byte) : ∀ s : State,
    execAll (msg.map .crcUpdate) (s.respond .none) = .next ((s.setCrc (msg.foldl crcStep s.crc)).respond .none) := by
  induction msg with
  | nil => intro s; rfl
  | cons b msg ih =>
    intro s
    rw [List.map_cons, execAll_cons_of_next (exec_crcUpdate b _)]
    exact ih (s.setCrc (crcStep s.crc b))

/-- INIT and one UPDATE per byte leave `crc8` of the bytes (R44). -/
theorem execAll_crcInit_crcUpdates (msg : List Byte) (s : State) :
    execAll (.crcInit :: msg.map .crcUpdate) s = .next ((s.setCrc (crc8 msg)).respond .none) := by
  rw [execAll_cons_of_next (exec_crcInit s)]
  exact execAll_crcUpdates msg (s.setCrc crcInitial)

end Sys2Proof.Machine

namespace Sys2Proof.Proofs

open Sys2Proof.Machine

/-- Settles O10: the fold of a sum from the zero register, then zero bytes, then the residue. -/
theorem crcIsLinearWithZeroResidue : Obligations.CrcIsLinearWithZeroResidue :=
  ⟨fun s t h => foldl_crcStep_zipWith_xor s t crcInitial crcInitial h, crc8_replicate_zero,
    fun s => ⟨crc8_zero_cons s, crc8_append_crc8 s⟩⟩

/-- Settles O11: a flipped bit makes another byte, and one other byte makes another CRC. -/
theorem crcDetectsEverySingleBitFlip : Obligations.CrcDetectsEverySingleBitFlip :=
  fun _ _ b _ hj h => xor_bit_ne_self b hj (crc8_single_byte_injective h)

/-- Settles O15, by induction on the bytes; READ then answers the register. -/
theorem streamedBytesGiveCrc8 : Obligations.StreamedBytesGiveCrc8 := by
  intro msg s
  have hrun := execAll_crcInit_crcUpdates msg s
  refine ⟨hrun, ?_⟩
  rw [execAll_append_of_next hrun, execAll_cons_of_next (exec_crcRead _)]
  rfl

/-- Settles O8: bit 7 is the most significant bit, and the eight shifts are an iteration. -/
theorem crcStepIsTheShiftRegister : Obligations.CrcStepIsTheShiftRegister := by
  intro c b
  rw [crcStep, crcShifts_eq_iterate, funext crcShift_eq_getLsbD]

/-- Settles O9, form by form. -/
theorem equivalentCrcFormsAgree : Obligations.EquivalentCrcFormsAgree :=
  fun c b => ⟨crcStepSerial_eq c b, crcStepParallel_eq c b, crcStepTable_eq c b⟩

/-- Settles O12: INIT's own equation. -/
theorem crcInitClearsTheRegister : Obligations.CrcInitClearsTheRegister := exec_crcInit

/-- Settles O13: UPDATE's own equation. -/
theorem crcUpdateStepsTheRegister : Obligations.CrcUpdateStepsTheRegister := exec_crcUpdate

/-- Settles O14: READ's own equation. -/
theorem crcReadAnswersTheRegister : Obligations.CrcReadAnswersTheRegister := exec_crcRead

end Sys2Proof.Proofs
end

section
/-! PROOFS. The statements of the family `41_framer_encode`: what ENCODE answers and refuses, and that DECODE and DRAIN
give an encoded frame back. First ENCODE's two equations, DECODE and the scan on an encoded frame with anything behind
it; then the statements. -/

namespace Sys2Proof.Machine

/-! ENCODE (R50, R51). -/

section
variable (cmd : Byte) {p : List Byte} (s : State)

theorem exec_encode_of_fits (h : p.length ≤ maxPayload) :
    exec (.encode cmd p) s = .next (s.respond (.bytes (encodeFrame cmd p))) := if_pos h

theorem exec_encode_oversized (h : maxPayload < p.length) : exec (.encode cmd p) s = .refused .oversizedPayload :=
  if_neg (Nat.not_le.2 h)

end

theorem encodeFrame_length (cmd : Byte) (p : List Byte) : (encodeFrame cmd p).length = overhead + p.length :=
  wireFrame_length cmd p _

/-- The Frame record that ENCODE's bytes stand for: its checksum is the CRC of its body (R50, R53). -/
def encodedFrame (cmd : Byte) (p : List Byte) : Frame := ⟨cmd, p, crc8 (frameBody cmd p)⟩

/-! An encoded frame in front of anything else: DECODE (R60), one turn of the scan (R70 (b)), the scan. -/

theorem exec_decode_of_header {bs : List Byte} (h : beginsWithHeader bs = true) (s : State) :
    exec (.decode bs) s = .next (s.respond (.decoded (decodeFrame bs))) := if_pos h

theorem beginsWithHeader_encodeFrame (cmd : Byte) (p t : List Byte) :
    beginsWithHeader (encodeFrame cmd p ++ t) = true := beginsWithHeader_wireFrame cmd p _ t

/-- At a header the scan does what DECODE says. -/
theorem scanTurn_of_header {d : List Byte} (h : beginsWithHeader d = true) :
    scanTurn d = .ofDecode (decodeFrame d) := by
  obtain ⟨r, rfl⟩ := (beginsWithHeader_iff d).1 h
  simp [scanTurn, h]

section
variable (cmd : Byte) {p : List Byte} (t : List Byte) (h : p.length ≤ maxPayload)
include h

/-- ENCODE puts in the CRC that DECODE compares with. -/
theorem decodeFrame_encodeFrame_append :
    decodeFrame (encodeFrame cmd p ++ t) = .frame (encodedFrame cmd p) (overhead + p.length) := by
  have hcrc : checksumMatches cmd p (crc8 (frameBody cmd p)) = true := by simp [checksumMatches]
  rw [encodeFrame, decodeFrame_wireFrame cmd p _ t h, if_pos hcrc, encodedFrame]

theorem exec_decode_encodeFrame_append (s : State) :
    exec (.decode (encodeFrame cmd p ++ t)) s =
      .next (s.respond (.decoded (.frame (encodedFrame cmd p) (overhead + p.length)))) := by
  rw [exec_decode_of_header (beginsWithHeader_encodeFrame cmd p t), decodeFrame_encodeFrame_append cmd t h]

theorem scanTurn_encodeFrame_append :
    scanTurn (encodeFrame cmd p ++ t) = .emit (encodedFrame cmd p) (overhead + p.length) := by
  rw [scanTurn_of_header (beginsWithHeader_encodeFrame cmd p t), decodeFrame_encodeFrame_append cmd t h]
  rfl

/-- The scan emits the encoded frame and goes on with the bytes behind it. -/
theorem scan_encodeFrame_append :
    scan (encodeFrame cmd p ++ t) =
      ⟨overhead + p.length + (scan t).pos, encodedFrame cmd p :: (scan t).frames, (scan t).events⟩ := by
  rw [scan_of_emit (scanTurn_encodeFrame_append cmd t h), List.drop_left' (encodeFrame_length cmd p)]

theorem drainRest_encodeFrame_append : drainRest (encodeFrame cmd p ++ t) = drainRest t := by
  simp only [drainRest]
  rw [scan_encodeFrame_append cmd t h, ← List.drop_drop, List.drop_left' (encodeFrame_length cmd p)]

/-- Pushed into an empty buffer and drained, an encoded frame is emitted alone and nothing stays (R53). -/
theorem execAll_push_encodeFrame_drain (s : State) (hcap : maxFrame ≤ s.cfg.cap) :
    execAll [.push (encodeFrame cmd p), .drain] (s.withBytes []) =
      .next ((s.withBytes []).respond (.frames [encodedFrame cmd p])) := by
  have hfits : ([] : List Byte).length + (encodeFrame cmd p).length ≤ s.cfg.cap := by
    rw [maxFrame] at hcap
    rw [List.length_nil, encodeFrame_length]
    omega
  have hscan := scan_encodeFrame_append cmd [] h
  have hrest := drainRest_encodeFrame_append cmd [] h
  rw [List.append_nil] at hscan hrest
  rw [execAll_push_drain s [] _ hfits, List.nil_append, hscan, hrest]
  rfl

end

end Sys2Proof.Machine

namespace Sys2Proof.Proofs

open Sys2Proof.Machine

/-- Settles O19: within the contract ENCODE answers `encodeFrame`, which is these bytes in wire order. -/
theorem encodeAnswersTheWireFrame : Obligations.EncodeAnswersTheWireFrame :=
  fun cmd _ s hp => exec_encode_of_fits cmd s hp

/-- Settles O21: ENCODE's answer, DECODE of it with anything behind it, and the scan of it alone. -/
theorem encodedFrameRoundTrips : Obligations.EncodedFrameRoundTrips :=
  fun cmd _ t s hp => ⟨exec_encode_of_fits cmd s hp, exec_decode_encodeFrame_append cmd t hp s,
    execAll_push_encodeFrame_drain cmd hp s⟩

/-- Settles O20: ENCODE's own equation outside its contract. -/
theorem oversizedEncodeIsRefused : Obligations.OversizedEncodeIsRefused :=
  fun cmd _ s hp => exec_encode_oversized cmd s hp

end Sys2Proof.Proofs
end

section
/-! PROOFS. The statements of the family `42_parser_decode`: DECODE's outcomes one by one, what more bytes change, and
that DECODE agrees with the instruction decoder. First where the instruction decoder reads a given frame, then when DECODE
is answered and what it answers; then the statements. -/

namespace Sys2Proof

/-! The checksum and the header. -/

theorem checksumMatches_iff (c : Byte) (p : List Byte) (k : Byte) :
    checksumMatches c p k = true ↔ k = crc8 (frameBody c p) := by
  rw [checksumMatches, beq_iff_eq, eq_comm]

theorem beginsWithHeader_append {bs : List Byte} (h : beginsWithHeader bs = true) (t : List Byte) :
    beginsWithHeader (bs ++ t) = true := by
  obtain ⟨r, rfl⟩ := (beginsWithHeader_iff bs).1 h
  exact (beginsWithHeader_iff _).2 ⟨r ++ t, rfl⟩

/-! The instruction decoder on the bytes of a given frame (R30, R32). -/

/-- A frame instruction has one CMD, one payload and one CRC byte. -/
theorem Instr.ofFrame_inj {c c' : Byte} {p p' : List Byte} {k k' : Byte}
    (h : Instr.ofFrame c p k = Instr.ofFrame c' p' k') : c = c' ∧ p = p' ∧ k = k' := by
  have hparts := congrArg Instr.frameParts h
  rw [frameParts_ofFrame, frameParts_ofFrame] at hparts
  simpa using hparts

/-- The decoder reads a frame exactly where its wire frame stands, and leaves the bytes after it. -/
theorem decode_eq_ofFrame_iff {s t : List Byte} {c : Byte} {p : List Byte} {k : Byte} :
    decode s = .ok (Instr.ofFrame c p k, t) ↔ p.length ≤ maxPayload ∧ s = wireFrame c p k ++ t := by
  constructor
  · intro h
    obtain ⟨c', p', k', hp, hi, rfl⟩ := decode_ok h
    obtain ⟨rfl, rfl, rfl⟩ := Instr.ofFrame_inj hi
    exact ⟨hp, rfl⟩
  · rintro ⟨hp, rfl⟩
    exact decode_wireFrame c p k t hp

end Sys2Proof

namespace Sys2Proof.Machine

/-! When DECODE is answered (R55). -/

theorem exec_decode_noHeader {bs : List Byte} (h : ¬ beginsWithHeader bs = true) (s : State) :
    exec (.decode bs) s = .refused .noHeader := if_neg h

/-- DECODE completes exactly on a sequence with the header, and answers `decodeFrame` of it. -/
theorem exec_decode_eq_next_iff {bs : List Byte} {s u : State} :
    exec (.decode bs) s = .next u ↔ beginsWithHeader bs = true ∧ u = s.respond (.decoded (decodeFrame bs)) := by
  by_cases h : beginsWithHeader bs = true
  · simp [exec_decode_of_header h, h, eq_comm]
  · simp [exec_decode_noHeader h, h]

theorem exec_decode_header (r : List Byte) (s : State) :
    exec (.decode (sof0 :: sof1 :: r)) s = .next (s.respond (.decoded (decodeFrame (sof0 :: sof1 :: r)))) :=
  exec_decode_of_header ((beginsWithHeader_iff _).2 ⟨r, rfl⟩) s

/-! What DECODE answers: a complete frame (R59, R60), and any outcome once more bytes are there (R61). -/

theorem decodeFrame_wrongChecksum {c k : Byte} {p : List Byte} (t : List Byte) (hp : p.length ≤ maxPayload)
    (hk : crc8 (frameBody c p) ≠ k) : decodeFrame (wireFrame c p k ++ t) = .invalid (overhead + p.length) := by
  rw [decodeFrame_wireFrame c p k t hp, if_neg (mt (checksumMatches_iff c p k).1 hk.symm)]

/-- DECODE answers a Frame exactly where that frame's wire frame stands at the front and its checksum matches. -/
theorem decodeFrame_eq_frame_iff {s : List Byte} (hs : beginsWithHeader s = true) {f : Frame} {n : Nat} :
    decodeFrame s = .frame f n ↔
      n = overhead + f.payload.length ∧ f.checksum = crc8 (frameBody f.command f.payload) ∧
      f.payload.length ≤ maxPayload ∧ ∃ t, s = wireFrame f.command f.payload f.checksum ++ t := by
  constructor
  · intro h
    rcases header_cases s hs with ⟨-, hd⟩ | ⟨_, _, _, -, -, hd⟩ | ⟨_, _, _, -, -, -, hd⟩ | ⟨c, p, k, t, rfl, hp⟩
    · cases hd.symm.trans h
    · cases hd.symm.trans h
    · cases hd.symm.trans h
    · rw [decodeFrame_wireFrame c p k t hp] at h
      split at h
      · next hk =>
        cases h
        exact ⟨rfl, (checksumMatches_iff c p k).1 hk, hp, t, rfl⟩
      · cases h
  · rintro ⟨rfl, hk, hp, t, rfl⟩
    rw [decodeFrame_wireFrame _ _ _ t hp, if_pos ((checksumMatches_iff _ _ _).2 hk)]

/-- The LEN byte settles a bad length and the span it announces settles a complete frame, so what comes later is not
looked at. -/
theorem decodeFrame_append {s : List Byte} (hs : beginsWithHeader s = true) (h : decodeFrame s ≠ .needMoreData)
    (t : List Byte) : decodeFrame (s ++ t) = decodeFrame s := by
  rcases header_cases s hs with ⟨-, hd⟩ | ⟨c, len, r, rfl, hlen, hd⟩ | ⟨_, _, _, -, -, -, hd⟩ | ⟨c, p, k, t', rfl, hp⟩
  · exact absurd hd h
  · rw [hd]
    exact decodeFrame_badLength _ _ c len (r ++ t) hlen
  · exact absurd hd h
  · rw [List.append_assoc, decodeFrame_wireFrame c p k _ hp, decodeFrame_wireFrame c p k _ hp]

end Sys2Proof.Machine

namespace Sys2Proof.Proofs

open Sys2Proof.Machine

/-- Settles O6: both decoders read a frame exactly where its wire frame stands, and DECODE compares the checksum too;
the bytes after the wire frame are those from the span on. -/
theorem blockDecodeAgreesWithInstructionDecoder : Obligations.BlockDecodeAgreesWithInstructionDecoder := by
  intro s f n hs
  rw [decodeFrame_eq_frame_iff hs, frameInstr, decode_eq_ofFrame_iff]
  constructor
  · rintro ⟨hn, hk, hp, t, rfl⟩
    have hspan : n = (wireFrame f.command f.payload f.checksum).length := hn.trans (wireFrame_length _ _ _).symm
    exact ⟨by simp [hspan], hn, hk, hp, by rw [hspan, List.drop_left]⟩
  · rintro ⟨-, hn, hk, hp, ht⟩
    exact ⟨hn, hk, hp, s.drop n, ht⟩

/-- Settles O22: DECODE is answered at the header, with the outcome of each case before the checksum. -/
theorem decodeBeforeTheChecksum : Obligations.DecodeBeforeTheChecksum := by
  intro c len r s
  refine ⟨fun hr => ?_, fun hlen => ?_, fun hlen hr => ?_⟩
  · have hd : decodeFrame (sof0 :: sof1 :: r) = .needMoreData := decodeFrame_short _ (Nat.add_lt_add_right hr 2)
    exact hd ▸ exec_decode_header r s
  · have hd := decodeFrame_badLength sof0 sof1 c len r hlen
    exact hd ▸ exec_decode_header (c :: len :: r) s
  · have hd := decodeFrame_incomplete sof0 sof1 c len r hlen hr
    exact hd ▸ exec_decode_header (c :: len :: r) s

/-- Settles O23: the bytes are a wire frame with a CRC byte that is not the CRC of its body. -/
theorem decodeOfAWrongChecksumIsInvalid : Obligations.DecodeOfAWrongChecksumIsInvalid := by
  intro c k p t s hp hk
  have hbytes : [0xAA, 0x55, c, BitVec.ofNat 8 p.length] ++ p ++ [k] ++ t = wireFrame c p k ++ t := rfl
  rw [hbytes, exec_decode_of_header (beginsWithHeader_wireFrame c p k t), decodeFrame_wrongChecksum t hp hk]
  rfl

/-- Settles O25: the header stays at the front, and DECODE's outcome stays. -/
theorem decodeOutcomeIsStableUnderMoreBytes : Obligations.DecodeOutcomeIsStableUnderMoreBytes := by
  intro bs t s u r hr hu hresp
  obtain ⟨hs, rfl⟩ := exec_decode_eq_next_iff.1 hu
  have hd : decodeFrame bs = r := Response.decoded.inj hresp
  rw [exec_decode_of_header (beginsWithHeader_append hs t), decodeFrame_append hs (hd ▸ hr)]

/-- Settles O24: no header, no answer. -/
theorem decodeWithoutTheHeaderIsRefused : Obligations.DecodeWithoutTheHeaderIsRefused :=
  fun bs s h => exec_decode_noHeader (mt (beginsWithHeader_iff bs).1 h) s

end Sys2Proof.Proofs
end

section
/-! PROOFS. The statements of the family `43_reassembler`: what PUSH stores and what an overflow keeps, one turn of
DRAIN's scan at a time, and what is held once a DRAIN has ended. First the bytes PUSH writes and the bytes it keeps,
DRAIN at each kind of turn, the byte sequences at which it stops; then the statements. -/

namespace Sys2Proof.Machine

/-! PUSH in any state (R65): the bytes from WR upward. -/

namespace Memory

theorem read_writeBytes_outside (v : List Byte) : ∀ {m : Memory} {a k : Nat}, k < a ∨ a + v.length ≤ k →
    (m.writeBytes a v).read k = m.read k := by
  induction v with
  | nil => intros; rfl
  | cons b v ih =>
    intro m a k hk
    rw [List.length_cons] at hk
    rw [writeBytes, ih (by omega), read_write, if_neg (by omega)]

theorem read_writeBytes_inside (v : List Byte) : ∀ (m : Memory) (a k : Nat) (h : k < v.length),
    (m.writeBytes a v).read (a + k) = some v[k] := by
  induction v with
  | nil => intro m a k h; simp at h
  | cons b v ih =>
    intro m a k h
    rw [writeBytes]
    cases k with
    | zero => simp [read_writeBytes_outside v (Or.inl (Nat.lt_succ_self a)), read_write]
    | succ k => simpa [Nat.add_right_comm, Nat.add_assoc] using ih (m.write a b) (a + 1) k (by simpa using h)

end Memory

/-- A byte below CAP goes to `BUF[WR]`; nothing is emptied first. -/
theorem storeByte_of_lt {s : State} (b : Byte) (h : s.wr < s.cfg.cap) :
    storeByte s b = .ok ((s.setBuf (s.buf.write s.wr b)).setWr (s.wr + 1)) := by
  rw [storeByte, if_neg h.ne, appendByte, memWrite_ok s s.wr [b] h]
  rfl

theorem storeBytes_of_fits (b : List Byte) : ∀ {s : State}, s.wr + b.length ≤ s.cfg.cap →
    storeBytes s b = .ok ((s.setBuf (s.buf.writeBytes s.wr b)).setWr (s.wr + b.length)) := by
  induction b with
  | nil => intros; rfl
  | cons x b ih =>
    intro s h
    rw [List.length_cons] at h
    rw [storeBytes, storeByte_of_lt x (by omega)]
    simp only
    rw [ih (by simp only [setWr_wr, setWr_cfg, setBuf_cfg]; omega), List.length_cons, Nat.add_comm b.length,
      ← Nat.add_assoc]
    rfl

theorem exec_push_of_room {s : State} {b : List Byte} (h : s.wr + b.length ≤ s.cfg.cap) :
    exec (.push b) s = .next (((s.setBuf (s.buf.writeBytes s.wr b)).setWr (s.wr + b.length)).respond .none) := by
  have hpush : pushBytes s b = storeBytes s b := by rw [pushBytes, if_neg (Nat.not_lt.2 h)]
  exact toResult_map_of_ok _ (hpush.trans (storeBytes_of_fits b h))

/-! PUSH of a burst that does not fit (R65, R66). -/

theorem exec_push_of_overflow {s : State} {bs b : List Byte} (hc : 0 < s.cfg.cap) (hbs : bs.length ≤ s.cfg.cap)
    (h : s.cfg.cap < bs.length + b.length) :
    exec (.push b) (s.withBytes bs) = .next ((s.withBytes (keepLast s.cfg.cap b)).respond .none) := by
  rw [execPush_withBytes s bs b hc hbs, if_neg (Nat.not_le.2 h)]

/-- The bytes after a whole number of buffers stay, a full buffer of them too. -/
theorem keepLast_append_of_whole {cap : Nat} {a c : List Byte} (ha : a.length % cap = 0) (hpos : 0 < c.length)
    (hc : c.length ≤ cap) : keepLast cap (a ++ c) = c := by
  obtain ⟨q, hq⟩ := Nat.dvd_of_mod_eq_zero ha
  have hkept : (a.length + c.length - 1) % cap = c.length - 1 := by
    rw [Nat.add_sub_assoc hpos, hq, Nat.mul_add_mod, Nat.mod_eq_of_lt (by omega)]
  rw [keepLast, List.length_append, hkept]
  exact List.drop_left' (by omega)

/-! One turn of the scan, on the bytes it looks at (R69 to R71). -/

theorem scanTurn_headerMiss {x y : Byte} (h : ¬ (x = sof0 ∧ y = sof1)) (r : List Byte) :
    scanTurn (x :: y :: r) = .move .headerMiss 1 := by
  have hh : ¬ beginsWithHeader (x :: y :: r) = true := by simpa [beginsWithHeader] using h
  rw [scanTurn, if_neg (by simp), if_neg hh]
  rfl

theorem scanTurn_badLength (c : Byte) {len : Byte} (r : List Byte) (h : maxPayload < len.toNat) :
    scanTurn (sof0 :: sof1 :: c :: len :: r) = .move .badLength 1 := by
  rw [scanTurn_of_header ((beginsWithHeader_iff _).2 ⟨_, rfl⟩), decodeFrame_badLength sof0 sof1 c len r h]
  rfl

theorem scanTurn_wrongChecksum {c k : Byte} {p : List Byte} (r : List Byte) (hp : p.length ≤ maxPayload)
    (hk : crc8 (frameBody c p) ≠ k) :
    scanTurn (wireFrame c p k ++ r) = .move (.invalid (overhead + p.length)) (overhead + p.length) := by
  rw [scanTurn_of_header (beginsWithHeader_wireFrame c p k r), decodeFrame_wrongChecksum r hp hk]
  rfl

/-! The same turns, in DRAIN. -/

theorem drainRest_of_stop {d : List Byte} {e : Option Event} (h : scanTurn d = .stop e) : drainRest d = d := by
  rw [drainRest, scan_of_stop h, List.drop_zero]

/-- Where the scan stops at once, nothing is emitted and every byte is kept. -/
theorem exec_drain_of_stop {s : State} {d : List Byte} {e : Option Event} (hd : d.length ≤ s.cfg.cap)
    (h : scanTurn d = .stop e) : exec .drain (s.withBytes d) = .next ((s.withBytes d).respond (.frames [])) := by
  rw [exec_drain_withBytes s d hd, drainRest_of_stop h, scan_of_stop h]

/-- Where the scan moves on without a frame, the bytes it passes might as well not have been there. -/
theorem exec_drain_of_move {s : State} {d : List Byte} {e : Event} {n : Nat} (hd : d.length ≤ s.cfg.cap)
    (h : scanTurn d = .move e n) : exec .drain (s.withBytes d) = exec .drain (s.withBytes (d.drop n)) := by
  have hrest : drainRest d = drainRest (d.drop n) := by
    rw [drainRest, scan_of_move h, ← List.drop_drop, drainRest]
  have hframes : (scan d).frames = (scan (d.drop n)).frames := by rw [scan_of_move h]
  rw [exec_drain_withBytes s d hd, exec_drain_withBytes s (d.drop n) (by rw [List.length_drop]; omega), hrest, hframes]

/-- A byte without the header is skipped alone (R69). -/
theorem exec_drain_headerMiss {s : State} {x y : Byte} {r : List Byte} (hr : r.length + 2 ≤ s.cfg.cap)
    (h : ¬ (x = sof0 ∧ y = sof1)) : exec .drain (s.withBytes (x :: y :: r)) = exec .drain (s.withBytes (y :: r)) :=
  exec_drain_of_move (d := x :: y :: r) hr (scanTurn_headerMiss h r)

/-! Where the scan stops (R68, R72, R75). -/

/-- A header hit whose frame is not complete: LEN has not come, or is legal and announces more bytes than there are. -/
def IncompleteFrame (d : List Byte) : Prop :=
  ∃ r, d = sof0 :: sof1 :: r ∧ (d.length < 4 ∨
    ∃ c len q, r = c :: len :: q ∧ len.toNat ≤ maxPayload ∧ d.length < overhead + len.toNat)

theorem IncompleteFrame.length_bounds {d : List Byte} (h : IncompleteFrame d) : 2 ≤ d.length ∧ d.length ≤ 20 := by
  obtain ⟨r, rfl, hshort | ⟨c, len, q, rfl, hlen, hq⟩⟩ := h
  · exact ⟨Nat.le_add_left 2 _, by omega⟩
  · rw [maxPayload] at hlen
    rw [overhead] at hq
    exact ⟨Nat.le_add_left 2 _, by omega⟩

theorem IncompleteFrame.decodeFrame {d : List Byte} (h : IncompleteFrame d) :
    Machine.decodeFrame d = .needMoreData := by
  obtain ⟨r, rfl, hshort | ⟨c, len, q, rfl, hlen, hq⟩⟩ := h
  · exact decodeFrame_short _ hshort
  · exact decodeFrame_incomplete sof0 sof1 c len q hlen (by simp only [List.length_cons] at hq; omega)

/-- The scan stops exactly at fewer than 2 bytes and at an incomplete frame. -/
theorem scanTurn_stops_iff (d : List Byte) :
    (∃ e, scanTurn d = .stop e) ↔ d.length < 2 ∨ IncompleteFrame d := by
  constructor
  · rintro ⟨e, he⟩
    rcases scanTurn_cases d with ⟨hd, -⟩ | ⟨-, -, h⟩ | ⟨hh, h4, -⟩ | ⟨_, _, _, -, -, h⟩ | ⟨c, len, q, rfl, hlen, hq, -⟩ |
      ⟨_, _, _, _, -, -, -, h⟩ | ⟨_, _, _, _, -, -, -, h⟩
    · exact .inl hd
    · cases h.symm.trans he
    · obtain ⟨r, rfl⟩ := (beginsWithHeader_iff d).1 hh
      exact .inr ⟨r, rfl, .inl h4⟩
    · cases h.symm.trans he
    · exact .inr ⟨_, rfl, .inr ⟨c, len, q, rfl, hlen, by simp only [List.length_cons]; omega⟩⟩
    · cases h.symm.trans he
    · cases h.symm.trans he
  · rintro (hd | hd)
    · exact ⟨none, if_pos hd⟩
    · have hturn : scanTurn d = .ofDecode (decodeFrame d) := by
        obtain ⟨r, rfl, -⟩ := hd
        exact scanTurn_of_header ((beginsWithHeader_iff _).2 ⟨r, rfl⟩)
      exact ⟨some .needMoreData, by rw [hturn, hd.decodeFrame]; rfl⟩

/-- What a DRAIN leaves: bytes that fit, at which the scan stops. -/
theorem exec_drain_leaves {s t : State} (hs : s.blockOk = true) (h : exec .drain s = .next t) :
    ∃ bs, t = t.withBytes bs ∧ t.cfg = s.cfg ∧ bs.length ≤ t.cfg.cap ∧ (bs.length < 2 ∨ IncompleteFrame bs) := by
  obtain ⟨bs, hbs, hle⟩ := (blockOk_iff s).1 hs
  rw [hbs, exec_drain_withBytes s bs hle] at h
  cases h
  exact ⟨drainRest bs, rfl, rfl, (drainRest_length_le bs).trans hle, (scanTurn_stops_iff _).1 (scan_stops bs)⟩

end Sys2Proof.Machine

namespace Sys2Proof.Proofs

open Sys2Proof.Machine

/-- Settles O26: PUSH's equation on a burst that fits. -/
theorem pushAppendsABurstThatFits : Obligations.PushAppendsABurstThatFits :=
  fun s bs b h => exec_push_of_fits s bs b h

/-- Settles O27: an overflow keeps what fits of the burst, here all of it. -/
theorem pushOverflowKeepsOnlyTheBurst : Obligations.PushOverflowKeepsOnlyTheBurst := by
  intro s bs b hbs hb hover
  rw [exec_push_of_overflow (by omega) hbs hover, keepLast_of_le _ b hb]
  rfl

/-- Settles O28: an overflow, and the bytes after a whole number of buffers. -/
theorem pushLongerThanTheBufferKeepsTheLastBytes : Obligations.PushLongerThanTheBufferKeepsTheLastBytes := by
  intro s bs a c hbs hpos hwhole hcpos hc
  have ha : s.cfg.cap ≤ a.length := Nat.le_of_dvd hpos (Nat.dvd_of_mod_eq_zero hwhole)
  rw [exec_push_of_overflow (by omega) hbs (by rw [List.length_append]; omega),
    keepLast_append_of_whole hwhole hcpos hc]
  rfl

/-- Settles O29: the memory after PUSH is the old one with the burst written from WR on. -/
theorem pushChangesOnlyTheStoredBytes : Obligations.PushChangesOnlyTheStoredBytes :=
  fun s b h => ⟨s.buf.writeBytes s.wr b, exec_push_of_room h, Memory.read_writeBytes_inside b s.buf s.wr,
    fun _ ha => Memory.read_writeBytes_outside b ha⟩

/-- Settles O30: the bytes before the scan's end are gone. -/
theorem drainRemovesAPrefix : Obligations.DrainRemovesAPrefix :=
  fun s bs h => ⟨(scan bs).pos, (scan bs).frames, scan_pos_le bs, exec_drain_withBytes s bs h⟩

/-- Settles O31: a turn that moves on by one byte. -/
theorem drainSkipsAByteWithoutHeader : Obligations.DrainSkipsAByteWithoutHeader :=
  fun _ _ _ _ hr h => exec_drain_headerMiss hr h

/-- Settles O32: the scan emits the frame and goes on with the bytes behind it. -/
theorem drainEmitsAValidFrame : Obligations.DrainEmitsAValidFrame := by
  intro s c p r hp hr
  refine ⟨s.withBytes (drainRest r), (scan r).frames, exec_drain_withBytes s r (by omega), ?_⟩
  have hfits : (encodeFrame c p ++ r).length ≤ s.cfg.cap := by
    rw [List.length_append, encodeFrame_length]
    exact hr
  rw [exec_drain_withBytes s _ hfits, drainRest_encodeFrame_append c r hp, scan_encodeFrame_append c r hp]
  rfl

/-- Settles O33: the bytes are a wire frame with a wrong CRC byte, and the turn moves on by its length. -/
theorem drainSkipsAnInvalidFrameWhole : Obligations.DrainSkipsAnInvalidFrameWhole := by
  intro s c k p r hp hr hk
  have hspan : (wireFrame c p k).length = overhead + p.length := wireFrame_length c p k
  have hfits : (wireFrame c p k ++ r).length ≤ s.cfg.cap := by
    rw [List.length_append, hspan]
    exact hr
  have hskip := exec_drain_of_move hfits (scanTurn_wrongChecksum r hp hk)
  rwa [List.drop_left' hspan] at hskip

/-- Settles O34: the turn moves on by one byte, and at the `55` then in front no header begins. -/
theorem drainPassesABadLengthByOneByte : Obligations.DrainPassesABadLengthByOneByte := by
  intro s c len r hr hlen
  have hone : exec .drain (s.withBytes (sof0 :: sof1 :: c :: len :: r)) =
      exec .drain (s.withBytes (sof1 :: c :: len :: r)) :=
    exec_drain_of_move (by simp only [List.length_cons]; omega) (scanTurn_badLength c r hlen)
  have htwo : exec .drain (s.withBytes (sof1 :: c :: len :: r)) = exec .drain (s.withBytes (c :: len :: r)) :=
    exec_drain_headerMiss (by simp only [List.length_cons]; omega) (fun h => absurd h.1 (by decide))
  exact ⟨hone, hone.trans htwo⟩

/-- Settles O35: these are the bytes at which the scan stops at once. -/
theorem drainKeepsWhatIsNotComplete : Obligations.DrainKeepsWhatIsNotComplete := by
  intro s bs hbs h
  have hstop : bs.length < 2 ∨ IncompleteFrame bs := by
    rcases h with h | ⟨r, rfl, hr | ⟨c, len, q, rfl, hlen, hq⟩⟩
    · exact .inl h
    · exact .inr ⟨r, rfl, .inl (Nat.add_lt_add_right hr 2)⟩
    · exact .inr ⟨_, rfl, .inr ⟨c, len, q, rfl, hlen, by simp only [List.length_cons, overhead]; omega⟩⟩
  obtain ⟨e, he⟩ := (scanTurn_stops_iff bs).2 hstop
  exact exec_drain_of_stop hbs he

/-- Settles O36: what a DRAIN leaves is what the scan stops at, so the next DRAIN stops at once. -/
theorem afterDrainOnlyAnIncompleteFrameIsHeld : Obligations.AfterDrainOnlyAnIncompleteFrameIsHeld := by
  intro s t hs ht
  obtain ⟨bs, hbs, -, hle, hheld⟩ := exec_drain_leaves hs ht
  obtain ⟨e, he⟩ := (scanTurn_stops_iff bs).2 hheld
  have hagain : exec .drain t = .next (t.respond (.frames [])) := by
    rw [hbs]
    exact exec_drain_of_stop hle he
  refine ⟨bs, hbs, ?_, hagain⟩
  rcases hheld with hshort | hframe
  · exact .inl (Nat.le_of_lt_succ hshort)
  · obtain ⟨hlow, hhigh⟩ := hframe.length_bounds
    exact .inr ⟨hlow, hhigh, hframe⟩

/-- Settles O37: a DRAIN leaves at most 20 bytes, so the burst fits behind them. -/
theorem pushAfterDrainNeverOverflows : Obligations.PushAfterDrainNeverOverflows := by
  intro s t b hcap hs ht hb
  obtain ⟨bs, hbs, hcfg, -, hheld⟩ := exec_drain_leaves hs ht
  have hlen : bs.length ≤ 20 := by
    rcases hheld with hshort | hframe
    · omega
    · exact hframe.length_bounds.2
  have hfits : bs.length + b.length ≤ t.cfg.cap := by
    rw [hcfg]
    omega
  exact ⟨bs, hbs, (congrArg (exec (.push b)) hbs).trans (exec_push_of_fits t bs b hfits)⟩

/-- Settles O39: the bursts deliver what the whole stream does, and its scan emits each encoded frame in turn. -/
theorem twoFramesSplitAnywhereComeOutOnce : Obligations.TwoFramesSplitAnywhereComeOutOnce := by
  intro s c1 c2 p1 p2 chunks hp1 hp2 hcap hflat
  have hne : chunks ≠ [] := by
    rintro rfl
    cases hflat
  obtain ⟨b, chunks, rfl⟩ := List.exists_cons_of_ne_nil hne
  have hfits : ([] : List Byte).length + (b :: chunks).flatten.length ≤ s.cfg.cap := by
    simp only [hflat, List.length_nil, List.length_append, encodeFrame_length, overhead]
    omega
  obtain ⟨r, hr⟩ := deliverChunks_withBytes chunks s [] b hfits
  have hscan := scan_encodeFrame_append c2 [] hp2
  have hrest := drainRest_encodeFrame_append c2 [] hp2
  rw [List.append_nil] at hscan hrest
  rw [List.nil_append, hflat, scan_encodeFrame_append c1 _ hp1, drainRest_encodeFrame_append c1 _ hp1, hscan,
    hrest] at hr
  exact ⟨_, hr, rfl⟩

end Sys2Proof.Proofs
end

section
/-! PROOFS. The statements of the family `44_commands`: what each command sets at the device, that no command touches the
block, and the frames the device sends of its own accord. First a passing frame as one equation, the commands' effects
with the operand written out, the emissions; then the statements. -/

namespace Sys2Proof.Machine

/-! A frame instruction at the device (R87, R94). -/

/-- A frame that carries the CRC of its body is applied to the environment and is not answered. -/
theorem exec_frame_crc8 {i : Instr} {c : Byte} {p : List Byte}
    (hi : i.frameParts = some (c, p, crc8 (c :: lenByte p :: p))) (hp : p.length ≤ maxPayload) (s : State) :
    exec i s = .next ((s.setEnv (s.env.applyCommand c p)).respond .none) := by
  rw [exec_frame hi, receiveFrame_of_passes (framePasses_crc8 c p hp)]

/-- Applied or dropped, a frame changes at most the environment. -/
theorem receiveFrame_eq_setEnv (c k : Byte) (p : List Byte) (s : State) :
    ∃ e : Env, receiveFrame c p k s = .next ((s.setEnv e).respond .none) := by
  cases h : framePasses c p k with
  | true => exact ⟨s.env.applyCommand c p, receiveFrame_of_passes h s⟩
  | false => exact ⟨s.env, receiveFrame_of_dropped h s⟩

/-! Which command a code selects (R34, R95, R98). -/

section
variable (e : Env) (p : List Byte)

theorem applyCommand_setSteering : e.applyCommand (Command.code .setSteering) p = e.refreshTimestamp.steer p := by
  rw [Env.applyCommand, Command.ofCode_code]

theorem applyCommand_setGain : e.applyCommand (Command.code .setGain) p = e.refreshTimestamp.changeGain p := by
  rw [Env.applyCommand, Command.ofCode_code]

theorem applyCommand_setEnable : e.applyCommand (Command.code .setEnable) p = e.refreshTimestamp.changeEnable p := by
  rw [Env.applyCommand, Command.ofCode_code]

/-- A command without an effect at the device, or a code without a command, refreshes the timestamp and no more. -/
theorem applyCommand_ignored {c : Byte}
    (h : Command.ofCode c ∈ [some .telemetry, some .fault, some .heartbeat, none]) :
    e.applyCommand c p = e.refreshTimestamp := by
  simp only [List.mem_cons, List.not_mem_nil, or_false] at h
  rcases h with h | h | h | h <;> rw [Env.applyCommand, h]

end

/-! What the operand of a payload does (R80 to R82). -/

theorem le16_eq_ofNat (b0 b1 : Byte) : le16 b0 b1 = BitVec.ofNat 16 (b0.toNat + 256 * b1.toNat) := by
  rw [← le16_toNat, BitVec.ofNat_toNat, BitVec.setWidth_eq]

theorem clampGain_eq_min (g : Byte) : clampGain g = BitVec.ofNat 8 (min g.toNat 100) := by
  unfold clampGain
  split
  next h => rw [Nat.min_eq_left h, BitVec.ofNat_toNat, BitVec.setWidth_eq]
  next h => rw [Nat.min_eq_right (Nat.le_of_not_le h)]; rfl

section
variable (e : Env)

theorem steer_cons_cons (b0 b1 : Byte) (r : List Byte) :
    e.steer (b0 :: b1 :: r) = e.setDevice { e.device with commandedPosition := le16 b0 b1 } := rfl

theorem steer_of_short {p : List Byte} (h : p.length < 2) : e.steer p = e := by
  match p, h with
  | [], _ => rfl
  | [_], _ => rfl

theorem changeGain_cons (g : Byte) (r : List Byte) :
    e.changeGain (g :: r) = e.setDevice { e.device with gain := clampGain g } := rfl

theorem changeGain_nil : e.changeGain [] = e := rfl

theorem changeEnable_zero (r : List Byte) :
    e.changeEnable (0x00 :: r) = (e.setDevice { e.device with enabled := false }).setActuator .relaxed := rfl

theorem changeEnable_nonzero {b : Byte} (h : b ≠ 0x00) (r : List Byte) :
    e.changeEnable (b :: r) = e.setDevice { e.device with enabled := true } := if_neg h

theorem changeEnable_nil : e.changeEnable [] = e := rfl

end

/-! The frames the device sends (R83, R85, R101 steps 5 and 6). -/

/-- The bytes of a value put together from two bytes are these two, low byte first. -/
theorem le16Bytes_le16 (b0 b1 : Byte) : le16Bytes (le16 b0 b1) = [b0, b1] := by
  have hlow : (le16 b0 b1).extractLsb' 0 8 = b0 := by
    apply BitVec.eq_of_toNat_eq
    rw [BitVec.extractLsb'_toNat, le16_toNat, Nat.shiftRight_zero]
    omega
  have hhigh : (le16 b0 b1).extractLsb' 8 8 = b1 := by
    apply BitVec.eq_of_toNat_eq
    rw [BitVec.extractLsb'_toNat, le16_toNat, Nat.shiftRight_eq_div_pow]
    omega
  rw [le16Bytes, hlow, hhigh]

/-- The Telemetry frame: the angle, then the loop rate, both little-endian. -/
theorem encodeFrame_telemetry (a0 a1 r0 r1 : Byte) :
    encodeFrame (Command.code .telemetry) (telemetryPayload (le16 a0 a1) (le16 r0 r1)) =
      [0xAA, 0x55, 0x10, 0x04, a0, a1, r0, r1, crc8 [0x10, 0x04, a0, a1, r0, r1]] := by
  rw [telemetryPayload, le16Bytes_le16, le16Bytes_le16]
  rfl

theorem encodeFrame_heartbeat : encodeFrame (Command.code .heartbeat) [] = [0xAA, 0x55, 0xF0, 0x00, 0x14] := by
  decide +kernel

section
variable {c : Config} {e : Env}

theorem emitTelemetry_of_elapsed (h : c.telemetryInterval ≤ e.loop.clock - e.loop.lastTelemetry) :
    e.emitTelemetry c = (e.setLoop { e.loop with lastTelemetry := e.loop.clock }).transmit
      (encodeFrame (Command.code .telemetry) (telemetryPayload e.loop.angleRaw e.loop.loopRateHz)) := if_pos h

theorem emitTelemetry_of_not_elapsed (h : e.loop.clock - e.loop.lastTelemetry < c.telemetryInterval) :
    e.emitTelemetry c = e := if_neg (Nat.not_le.2 h)

theorem emitHeartbeat_of_elapsed (h : c.heartbeatInterval ≤ e.loop.clock - e.loop.lastHeartbeat) :
    e.emitHeartbeat c = (e.setLoop { e.loop with lastHeartbeat := e.loop.clock }).transmit
      (encodeFrame (Command.code .heartbeat) []) := if_pos h

theorem emitHeartbeat_of_not_elapsed (h : e.loop.clock - e.loop.lastHeartbeat < c.heartbeatInterval) :
    e.emitHeartbeat c = e := if_neg (Nat.not_le.2 h)

end

end Sys2Proof.Machine

namespace Sys2Proof.Proofs

open Sys2Proof.Machine

/-- Settles O42, by the payload: two bytes or more are the position, fewer are no operand. -/
theorem setSteeringStoresThePosition : Obligations.SetSteeringStoresThePosition := by
  intro p s hp
  refine (exec_frame_crc8 (i := .setSteering p _) (c := Command.code .setSteering) rfl hp s).trans ?_
  rw [applyCommand_setSteering]
  match p with
  | [] => rw [steer_of_short _ (by simp)]; rfl
  | [b] => rw [steer_of_short _ (by simp)]; rfl
  | b0 :: b1 :: r => rw [steer_cons_cons, le16_eq_ofNat]; rfl

/-- Settles O43, by the payload: its first byte clamped, or no operand. -/
theorem setGainClampsToOneHundred : Obligations.SetGainClampsToOneHundred := by
  intro p s hp
  refine (exec_frame_crc8 (i := .setGain p _) (c := Command.code .setGain) rfl hp s).trans ?_
  rw [applyCommand_setGain]
  cases p with
  | nil => rw [changeGain_nil]; rfl
  | cons g r => rw [changeGain_cons, clampGain_eq_min]; rfl

/-- Settles O44, by the payload: a zero byte, any other byte, no operand. -/
theorem setEnableSetsEnabledAndRelaxes : Obligations.SetEnableSetsEnabledAndRelaxes := by
  intro p s hp
  refine (exec_frame_crc8 (i := .setEnable p _) (c := Command.code .setEnable) rfl hp s).trans ?_
  rw [applyCommand_setEnable]
  cases p with
  | nil => rw [changeEnable_nil]; rfl
  | cons b r =>
    by_cases hb : b = 0x00
    · rw [hb, changeEnable_zero]; rfl
    · rw [changeEnable_nonzero _ hb]
      simp only [bne_iff_ne.2 hb, if_neg hb]
      rfl

/-- Settles O45: none of these codes selects a command with an effect at the device. -/
theorem otherFramesOnlyRefreshTheTimestamp : Obligations.OtherFramesOnlyRefreshTheTimestamp := by
  intro c p s hp hc after
  have hignored {i : Instr} {d : Byte} (hi : i.frameParts = some (d, p, crc8 (d :: lenByte p :: p)))
      (hd : Command.ofCode d ∈ [some .telemetry, some .fault, some .heartbeat, none]) : exec i s = .next after := by
    rw [exec_frame_crc8 hi hp, applyCommand_ignored _ _ hd]
    rfl
  exact ⟨hignored rfl (by decide), hignored rfl (by decide), hignored rfl (by decide), hignored rfl (by simp [hc])⟩

/-- Settles O47: a frame is received, and that sets the environment alone. -/
theorem commandsLeaveTheBlockAlone : Obligations.CommandsLeaveTheBlockAlone := by
  intro i s hi
  obtain ⟨⟨c, p, k⟩, hparts⟩ := Option.ne_none_iff_exists'.1 hi
  rw [exec_frame hparts]
  exact receiveFrame_eq_setEnv c k p s

/-- Settles O51: each emission on either side of its interval, with the bytes of its frame. -/
theorem telemetryAndHeartbeatAreSent : Obligations.TelemetryAndHeartbeatAreSent := by
  intro c e a0 a1 r0 r1
  refine ⟨fun ha hr h => ?_, emitTelemetry_of_not_elapsed, fun h => ?_, emitHeartbeat_of_not_elapsed⟩
  · rw [emitTelemetry_of_elapsed h, ha, hr, encodeFrame_telemetry]
    rfl
  · rw [emitHeartbeat_of_elapsed h, encodeFrame_heartbeat]
    rfl

end Sys2Proof.Proofs
end

section
/-! PROOFS. The statements of the family `45_environment`: what reaches the consumer, what the steps of the Control Loop
do, that a fault code stays. First the frames the parser drops, one equation per branch of the timeout, the pulse width,
the counter and the pacing, then what keeps the fault code, then an arrival of bytes as the frames it emits; then the
statements. -/

namespace Sys2Proof.Machine

/-! The frames the parser drops (R57, R59, R94). -/

theorem framePasses_eq_false_iff (c : Byte) (p : List Byte) (k : Byte) :
    framePasses c p k = false ↔ crc8 (frameBody c p) ≠ k ∨ maxPayload < p.length := by
  rw [framePasses, Bool.and_eq_false_iff, decide_eq_false_iff_not, Nat.not_le, checksumMatches, beq_eq_false_iff_ne,
    or_comm]

/-! The timeout (R99, R101 step 2). -/

/-- The Fault frame of a timeout, byte by byte (R84). -/
theorem encodeFrame_serialTimeout :
    encodeFrame (Command.code .fault) [faultByte .serialTimeout] = [0xAA, 0x55, 0x11, 0x01, 0x01, 0xDB] := by
  decide +kernel

section
variable {c : Config} {e : Env}

theorem timedOut_iff : e.timedOut c = true ↔
    e.device.enabled = true ∧ c.serialTimeout < e.loop.clock - e.device.lastCommandTimestamp := by
  simp [Env.timedOut]

theorem checkTimeout_of_timedOut (h : e.timedOut c = true) :
    e.checkTimeout c =
      ((e.setDevice { e.device with enabled := false, faultCode := .serialTimeout }).setActuator .relaxed).transmit
        (encodeFrame (Command.code .fault) [faultByte .serialTimeout]) := by
  rw [Env.checkTimeout, Env.evaluateTimeout, if_pos h]

theorem checkTimeout_of_not_timedOut (h : ¬ e.timedOut c = true) : e.checkTimeout c = e := by
  rw [Env.checkTimeout, Env.evaluateTimeout, if_neg h]

theorem not_timedOut_of_disabled (h : e.device.enabled = false) : ¬ e.timedOut c = true := by
  simp [Env.timedOut, h]

/-- After the timeout is evaluated it no longer holds: a timeout disables the device (R99). -/
theorem not_timedOut_checkTimeout : ¬ (e.checkTimeout c).timedOut c = true := by
  by_cases h : e.timedOut c = true
  · rw [checkTimeout_of_timedOut h]
    exact not_timedOut_of_disabled rfl
  · rwa [checkTimeout_of_not_timedOut h]

end

/-! The pulse width (R96, R97). -/

section
variable {c : Config} {d : DeviceState}

/-- At gain 100 the division undoes the product exactly, whichever way it truncates. -/
theorem deflection_of_gain_hundred (h : d.gain = 100) : deflection c d = d.commandedPosition.toInt := by
  have hgain : (d.gain.toNat : Int) = 100 := by rw [h]; rfl
  rw [deflection, hgain, asS16_eq_toInt]
  cases c.rounding with
  | towardZero => exact Int.mul_tdiv_cancel _ (by decide)
  | towardNegInf => exact Int.mul_fdiv_cancel _ (by decide)

/-- A product of zero is no deflection, whichever way the division truncates. -/
theorem deflection_of_product_zero (h : asS16 d.commandedPosition * (d.gain.toNat : Int) = 0) :
    deflection c d = 0 := by
  rw [deflection, h]
  cases c.rounding <;> rfl

theorem computeActuatorMicroseconds_of_greatest (hc : c.servoMinUs ≤ c.servoMaxUs) (h : deflection c d = 32767) :
    computeActuatorMicroseconds c d = c.servoMaxUs := by
  rw [computeActuatorMicroseconds, h, mapDeflection, if_pos rfl, clampPulse, min_self, max_eq_right hc]

theorem computeActuatorMicroseconds_of_least (hc : c.servoMinUs ≤ c.servoMaxUs) (h : deflection c d = -32768) :
    computeActuatorMicroseconds c d = c.servoMinUs := by
  rw [computeActuatorMicroseconds, h, mapDeflection, if_neg (by decide), if_pos rfl, clampPulse, min_eq_left hc,
    max_self]

/-- The pulse width sees the device through its deflection alone. -/
theorem computeActuatorMicroseconds_congr {d' : DeviceState} (h : deflection c d = deflection c d') :
    computeActuatorMicroseconds c d = computeActuatorMicroseconds c d' := by
  rw [computeActuatorMicroseconds, h, computeActuatorMicroseconds]

end

/-! Steps 4, 7 and 8 of the Control Loop (R101). -/

section
variable {c : Config} {e : Env}

theorem actuate_of_enabled (h : e.device.enabled = true) :
    e.actuate c = e.setActuator (.driven (computeActuatorMicroseconds c e.device)) := if_pos h

theorem actuate_of_disabled (h : e.device.enabled = false) : e.actuate c = e := if_neg (by simp [h])

theorem countLoop_of_elapsed (h : 1000 ≤ e.loop.clock - e.loop.lastSnapshot) :
    e.countLoop = e.setLoop
      { e.loop with loopRateHz := loopRate (e.loop.loopCounter + 1), loopCounter := 0, lastSnapshot := e.loop.clock } :=
  if_pos h

theorem countLoop_of_not_elapsed (h : e.loop.clock - e.loop.lastSnapshot < 1000) :
    e.countLoop = e.setLoop { e.loop with loopCounter := e.loop.loopCounter + 1 } := if_neg (Nat.not_le.2 h)

theorem loopRate_toNat {n : Nat} (h : n < 65536) : (loopRate n).toNat = n := by
  rw [loopRate, if_pos h, BitVec.toNat_ofNat]
  exact Nat.mod_eq_of_lt h

theorem pace_of_undershoot (h : e.loop.clock ≤ e.loop.iterationStart + periodMs c) :
    e.pace c = e.setLoop { e.loop with clock := e.loop.iterationStart + periodMs c } := by
  rw [Env.pace, max_eq_right h]

theorem pace_of_overrun (h : e.loop.iterationStart + periodMs c ≤ e.loop.clock) : e.pace c = e := by
  rw [Env.pace, max_eq_left h]
  rfl

end

/-! What keeps the fault code (R99, N20): only a timeout sets it. -/

section
variable (c : Config) (e : Env)

@[simp] theorem actuate_device : (e.actuate c).device = e.device := by
  unfold Env.actuate; split <;> rfl

@[simp] theorem emitTelemetry_device : (e.emitTelemetry c).device = e.device := by
  unfold Env.emitTelemetry; split <;> rfl

@[simp] theorem emitHeartbeat_device : (e.emitHeartbeat c).device = e.device := by
  unfold Env.emitHeartbeat; split <;> rfl

@[simp] theorem countLoop_device : e.countLoop.device = e.device := by
  simp only [Env.countLoop]; split <;> rfl

theorem checkTimeout_faultCode :
    (e.checkTimeout c).device.faultCode = e.device.faultCode ∨
      (e.checkTimeout c).device.faultCode = .serialTimeout := by
  by_cases h : e.timedOut c = true
  · exact .inr (by rw [checkTimeout_of_timedOut h]; rfl)
  · exact .inl (by rw [checkTimeout_of_not_timedOut h])

end

theorem applyFrames_faultCode (fs : List Frame) : ∀ e : Env,
    (fs.foldl Env.applyFrame e).device.faultCode = e.device.faultCode := by
  induction fs with
  | nil => intro e; rfl
  | cons f fs ih =>
    intro e
    obtain ⟨-, -, hf⟩ := applyCommand_frame e f.command f.payload
    exact (ih _).trans hf

/-- No instruction touches the fault code: an operation leaves the environment alone, a frame is a command. -/
theorem exec_faultCode {i : Instr} {s t : State} (h : exec i s = .next t) :
    t.env.device.faultCode = s.env.device.faultCode := by
  cases hi : i.frameParts with
  | none =>
    obtain ⟨henv, -⟩ := exec_operation_same hi h
    rw [henv]
  | some x =>
    obtain ⟨c, p, k⟩ := x
    rw [exec_frame hi] at h
    rcases receiveFrame_cases h with ⟨-, rfl⟩ | ⟨-, rfl⟩
    · obtain ⟨-, -, hf⟩ := applyCommand_frame s.env c p
      exact hf
    · rfl

theorem receiveBytes_faultCode {b : List Byte} {s t : State} (h : receiveBytes b s = .ok t) :
    t.env.device.faultCode = s.env.device.faultCode := by
  obtain ⟨s1, s2, fs, hpush, hdrain, rfl⟩ := receiveBytes_cases h
  obtain ⟨henv1, -⟩ := pushBytes_same hpush
  obtain ⟨henv2, -⟩ := drainFrames_same hdrain
  rw [setEnv_env, applyFrames_faultCode, henv2, henv1]

/-- An action of the environment keeps the fault code or raises SerialTimeout. -/
theorem environmentAction_faultCode {a : EnvAction} {s t : State} (h : environmentAction a s = .next t) :
    t.env.device.faultCode = s.env.device.faultCode ∨ t.env.device.faultCode = .serialTimeout := by
  cases a with
  | receive b =>
    obtain ⟨u, hu, rfl⟩ := toResult_map_eq_next h
    exact .inl (by simpa using receiveBytes_faultCode hu)
  | checkTimeout => cases h; exact checkTimeout_faultCode s.cfg s.env
  | actuate => cases h; simp
  | emitTelemetry => cases h; simp
  | emitHeartbeat => cases h; simp
  | countLoop => cases h; simp
  | _ => cases h; exact .inl rfl

/-- A step keeps the fault code or raises SerialTimeout. -/
theorem step_faultCode {s t : State} (h : step s = .next t) :
    t.env.device.faultCode = s.env.device.faultCode ∨ t.env.device.faultCode = .serialTimeout := by
  rcases step_cases s with ⟨-, hs⟩ | ⟨-, -, hs⟩ | ⟨i, rest, -, -, hs⟩ | ⟨a, rest, -, -, hs⟩ <;> rw [hs] at h
  · cases h
  · cases h; exact .inl rfl
  · exact .inl (by simpa using exec_faultCode h)
  · simpa using environmentAction_faultCode h

/-! An arrival of bytes (R101 step 1). -/

/-- Passing frames executed one after the other are folded into the environment. Each clears the response, so the run is
stated from a state without one, which the empty run keeps. -/
theorem execAll_frameInstrs (fs : List Frame) : ∀ s : State,
    (∀ f ∈ fs, framePasses f.command f.payload f.checksum = true) →
    execAll (fs.map frameInstr) (s.respond .none) = .next ((s.setEnv (fs.foldl Env.applyFrame s.env)).respond .none) := by
  induction fs with
  | nil => intro s _; rfl
  | cons f fs ih =>
    intro s h
    have hf : exec (frameInstr f) (s.respond .none) = .next ((s.setEnv (s.env.applyFrame f)).respond .none) := by
      rw [exec_frameInstr, receiveFrame_of_passes (h f List.mem_cons_self)]
      rfl
    rw [List.map_cons, execAll_cons_of_next hf]
    exact ih (s.setEnv (s.env.applyFrame f)) fun g hg => h g (List.mem_cons_of_mem f hg)

/-- Whatever the burst, PUSH leaves a byte sequence that fits (R65, R66). -/
theorem pushBytes_withBytes_leaves {s : State} {bs : List Byte} (a : List Byte) (hc : 0 < s.cfg.cap)
    (h : bs.length ≤ s.cfg.cap) :
    ∃ held, pushBytes (s.withBytes bs) a = .ok (s.withBytes held) ∧ held.length ≤ s.cfg.cap := by
  refine ⟨_, pushBytes_withBytes s bs a hc h, ?_⟩
  split
  next hfits => rwa [List.length_append]
  next => exact keepLast_length_le s.cfg.cap a hc

section
variable {s : State} {bs a held : List Byte}
variable (hpush : pushBytes (s.withBytes bs) a = .ok (s.withBytes held)) (hheld : held.length ≤ s.cfg.cap)
include hpush hheld

/-- After a PUSH, as two instructions: the DRAIN answers the frames of what PUSH left. -/
theorem execAll_push_drain_of_push :
    execAll [.push a, .drain] (s.withBytes bs) =
      .next ((s.withBytes (drainRest held)).respond (.frames (scan held).frames)) := by
  have hexec : exec (.push a) (s.withBytes bs) = .next ((s.respond .none).withBytes held) :=
    toResult_map_of_ok _ hpush
  rw [execAll_cons_of_next hexec, execAll_cons_of_next (exec_drain_withBytes (s.respond .none) held hheld)]
  rfl

/-- After a PUSH, as one action: the same frames are applied. -/
theorem environmentAction_receive_of_push :
    environmentAction (.receive a) (s.withBytes bs) =
      .next (((s.withBytes (drainRest held)).setEnv ((scan held).frames.foldl Env.applyFrame s.env)).respond .none) := by
  have hdrain : drainFrames (s.withBytes held) = .ok (s.withBytes (drainRest held), (scan held).frames) :=
    drainFrames_withBytes s held hheld
  refine toResult_map_of_ok _ ?_
  rw [receiveBytes, hpush]
  simp only [hdrain, withBytes_env]

end

/-! A single wire frame in the scan (R59, R70). -/

section
variable (c : Byte) {p : List Byte} (k : Byte) (h : p.length ≤ maxPayload)
include h

/-- The scan of one wire frame emits it where it passes, skips it where it does not, and leaves nothing either way. -/
theorem scan_wireFrame :
    (scan (wireFrame c p k)).frames = (if framePasses c p k then [⟨c, p, k⟩] else []) ∧
      drainRest (wireFrame c p k) = [] := by
  by_cases hk : crc8 (frameBody c p) = k
  · subst hk
    have hscan := scan_encodeFrame_append c [] h
    have hrest := drainRest_encodeFrame_append c [] h
    rw [List.append_nil] at hscan hrest
    have hpass : framePasses c p (crc8 (frameBody c p)) = true := framePasses_crc8 c p h
    rw [if_pos hpass]
    exact ⟨congrArg ScanResult.frames hscan, hrest⟩
  · have hturn := scanTurn_wrongChecksum [] h hk
    rw [List.append_nil] at hturn
    have hdrop : (wireFrame c p k).drop (overhead + p.length) = [] :=
      List.drop_eq_nil_of_le (wireFrame_length c p k).le
    have hscan := scan_of_move hturn
    rw [hdrop] at hscan
    rw [drainRest, hscan, (framePasses_eq_false_iff c p k).2 (.inl hk)]
    exact ⟨rfl, hdrop⟩

/-- One wire frame that arrives at an empty buffer is that frame received. -/
theorem environmentAction_receive_wireFrame {s : State} (hcap : maxFrame ≤ s.cfg.cap) :
    environmentAction (.receive (wireFrame c p k)) (s.withBytes []) = receiveFrame c p k (s.withBytes []) := by
  have hfits : ([] : List Byte).length + (wireFrame c p k).length ≤ s.cfg.cap := by
    rw [maxFrame] at hcap
    rw [List.length_nil, wireFrame_length]
    omega
  obtain ⟨hframes, hrest⟩ := scan_wireFrame c k h
  have hpush : pushBytes (s.withBytes []) (wireFrame c p k) = .ok (s.withBytes (wireFrame c p k)) :=
    pushBytes_of_fits s [] _ hfits
  rw [environmentAction_receive_of_push hpush (by simpa using hfits), hrest]
  cases hp : framePasses c p k with
  | true => rw [hframes, hp, receiveFrame_of_passes hp]; rfl
  | false => rw [hframes, hp, receiveFrame_of_dropped hp]; rfl

end

end Sys2Proof.Machine

namespace Sys2Proof.Proofs

open Sys2Proof.Machine

/-- Settles O46: either reason keeps the frame from passing, and a frame instruction is the reception of its frame. -/
theorem frameTheParserDropsChangesNothing : Obligations.FrameTheParserDropsChangesNothing := by
  intro i c k p s hi h
  rw [exec_frame hi, receiveFrame_of_dropped ((framePasses_eq_false_iff c p k).2 h)]
  rfl

/-- Settles O49: the two branches of the timeout, and after either it no longer holds. -/
theorem timeoutDisablesAndReportsOnce : Obligations.TimeoutDisablesAndReportsOnce := by
  intro c e
  refine ⟨fun hen hlong => ?_, fun h => ?_, checkTimeout_of_not_timedOut not_timedOut_checkTimeout⟩
  · rw [checkTimeout_of_timedOut (timedOut_iff.2 ⟨hen, hlong⟩), encodeFrame_serialTimeout]
    rfl
  · refine checkTimeout_of_not_timedOut fun ht => ?_
    obtain ⟨hen, hlong⟩ := timedOut_iff.1 ht
    rcases h with hdis | hshort
    · exact absurd hen (by simp [hdis])
    · exact absurd hlong (Nat.not_lt.2 hshort)

/-- Settles O50: the deflection at gain 100 and at gain 0, the two ends of the map, the clamp, and step 4. -/
theorem pulseWidthMeetsTheThreePointsAndTheRange : Obligations.PulseWidthMeetsTheThreePointsAndTheRange := by
  intro c d hc
  obtain ⟨hlow, hhigh⟩ := computeActuatorMicroseconds_range c d hc
  refine ⟨deflection_of_gain_hundred, fun hg hpos => ?_, fun hg hpos => ?_, fun w g hg => ?_, hlow, hhigh,
    fun e => ⟨actuate_of_enabled, actuate_of_disabled⟩⟩
  · exact computeActuatorMicroseconds_of_greatest hc ((deflection_of_gain_hundred hg).trans hpos)
  · exact computeActuatorMicroseconds_of_least hc ((deflection_of_gain_hundred hg).trans hpos)
  · apply computeActuatorMicroseconds_congr
    rw [deflection_of_product_zero (by simp [hg]), deflection_of_product_zero (by simp [asS16])]

/-- Settles O52: a step keeps the code or raises another than None. -/
theorem faultCodeIsNeverCleared : Obligations.FaultCodeIsNeverCleared := by
  intro s t hs hfault
  rcases step_faultCode hs with h | h <;> rw [h]
  · exact hfault
  · decide

/-- Settles O55: PUSH leaves some bytes that fit; their frames are those the two instructions answer and those the
action applies, and every frame a scan emits passes. -/
theorem stepOnReceivedBytesRunsTheEmittedFrames : Obligations.StepOnReceivedBytesRunsTheEmittedFrames := by
  intro s bs a rest hcap hbs hr
  let s0 := s.setRequests rest
  obtain ⟨held, hpush, hheld⟩ := pushBytes_withBytes_leaves (s := s0) a (Nat.lt_of_lt_of_le (by decide) hcap) hbs
  refine ⟨s0.withBytes (drainRest held), (scan held).frames, execAll_push_drain_of_push hpush hheld, ?_⟩
  calc step (s.withBytes bs)
      = environmentAction (.receive a) (s0.withBytes bs) := step_environment hcap hr
    _ = _ := environmentAction_receive_of_push hpush hheld
    _ = execAll ((scan held).frames.map frameInstr) ((s0.withBytes (drainRest held)).respond .none) :=
        (execAll_frameInstrs _ _ (framePasses_of_scan held)).symm

/-- Settles O54: what decodes with nothing left is one wire frame, and its arrival is its reception. -/
theorem stepRunsTheDecodedInstruction : Obligations.StepRunsTheDecodedInstruction := by
  intro s bs i rest hcap hr hdec
  obtain ⟨c, p, k, hp, rfl, rfl⟩ := decode_ok hdec
  rw [List.append_nil] at hr
  let s0 := s.setRequests rest
  calc step (s.withBytes [])
      = environmentAction (.receive (wireFrame c p k)) (s0.withBytes []) := step_environment hcap hr
    _ = receiveFrame c p k (s0.withBytes []) := environmentAction_receive_wireFrame c k hp hcap
    _ = exec (Instr.ofFrame c p k) (s0.withBytes []) := (exec_frame (Instr.frameParts_ofFrame c p k) _).symm

/-- Settles O56: the iteration as one step, then each branch of the sample, the counter, the pacing and the clock. -/
theorem iterationAsksForItsStepsInOrder : Obligations.IterationAsksForItsStepsInOrder := by
  refine ⟨fun s inp rest hcap hr => step_environment hcap hr, fun c e => ?_⟩
  exact ⟨fun raw => rfl, countLoop_of_not_elapsed, fun h => ⟨_, loopRate_toNat, countLoop_of_elapsed h⟩,
    fun h => pace_of_undershoot (Nat.le_of_lt h), pace_of_overrun, fun ms => rfl⟩

end Sys2Proof.Proofs
end

section
/-! PROOFS. The statements of the family `60_exceptions`: which error events a scan and a PUSH meet (R110). First the
events of each turn of the scan, then how often a PUSH empties a buffer that holds something; then the statement. -/

namespace Sys2Proof.Machine

/-! The events of a scan (R68 to R72), turn by turn. -/

theorem scan_events_of_move {d : List Byte} {e : Event} {n : Nat} (h : scanTurn d = .move e n) :
    (scan d).events = e :: (scan (d.drop n)).events := congrArg ScanResult.events (scan_of_move h)

theorem scan_events_of_stop {d : List Byte} {e : Option Event} (h : scanTurn d = .stop e) :
    (scan d).events = e.toList := congrArg ScanResult.events (scan_of_stop h)

theorem scanTurn_short {d : List Byte} (h : d.length < 2) : scanTurn d = .stop none := if_pos h

theorem IncompleteFrame.scanTurn {d : List Byte} (h : IncompleteFrame d) :
    Machine.scanTurn d = .stop (some .needMoreData) := by
  have hheader : beginsWithHeader d = true := by
    obtain ⟨r, rfl, -⟩ := h
    exact (beginsWithHeader_iff _).2 ⟨r, rfl⟩
  rw [scanTurn_of_header hheader, h.decodeFrame]
  rfl

/-- A complete frame is an event exactly where its checksum is wrong (R59, R60). -/
theorem scan_events_wireFrame_append (c k : Byte) {p : List Byte} (r : List Byte) (hp : p.length ≤ maxPayload) :
    (scan (wireFrame c p k ++ r)).events =
      if crc8 (frameBody c p) = k then (scan r).events else .invalid (overhead + p.length) :: (scan r).events := by
  split
  next hk =>
    subst hk
    rw [← encodeFrame, scan_encodeFrame_append c r hp]
  next hk => rw [scan_events_of_move (scanTurn_wrongChecksum r hp hk), List.drop_left' (wireFrame_length c p k)]

/-! The events of a PUSH (R65, R66). -/

/-- Were the buffer endless, the last of the `n` bytes would stand at index `wr + n - 1`; a buffer of CAP bytes is emptied
once for each positive multiple of CAP up to there. -/
theorem storeEvents_eq_replicate {cap : Nat} (hc : 0 < cap) (n : Nat) : ∀ {wr : Nat}, wr ≤ cap →
    storeEvents cap wr n = List.replicate ((wr + n - 1) / cap) .overflow := by
  induction n with
  | zero =>
    intro wr h
    rw [Nat.div_eq_of_lt (by omega)]
    rfl
  | succ n ih =>
    intro wr h
    rw [storeEvents]
    split
    next hfull =>
      subst hfull
      rw [if_pos hc, ih hc, Nat.add_sub_cancel_left, Nat.add_succ_sub_one, Nat.add_div_left n hc]
      rfl
    next hroom => rw [ih (by omega), Nat.add_right_comm wr 1 n, Nat.add_assoc]

theorem pushEvents_of_fits {cap wr : Nat} {b : List Byte} (hc : 0 < cap) (h : wr + b.length ≤ cap) :
    pushEvents cap wr b = [] := by
  rw [pushEvents, if_neg (Nat.not_lt.2 h), storeEvents_eq_replicate hc b.length (by omega),
    Nat.div_eq_of_lt (by omega), List.replicate_zero]

/-- The bytes held are discarded first, then the burst is stored from an empty buffer. -/
theorem pushEvents_of_overflow {cap wr : Nat} {b : List Byte} (hc : 0 < cap) (h : cap < wr + b.length) :
    pushEvents cap wr b = List.replicate ((if 0 < wr then 1 else 0) + (b.length - 1) / cap) .overflow := by
  rw [pushEvents, if_pos h, storeEvents_eq_replicate hc b.length (Nat.zero_le cap), Nat.zero_add, List.replicate_add]
  split <;> rfl

end Sys2Proof.Machine

namespace Sys2Proof.Proofs

open Sys2Proof.Machine

/-- Settles O41: the events of each turn of the scan, then those of a PUSH that fits and of one that does not. -/
theorem errorEventsAreTheListedOutcomes : Obligations.ErrorEventsAreTheListedOutcomes := by
  refine ⟨fun x y r h => ?_, fun c len r h => ?_, fun c k p r hp => ?_, fun bs h => ?_, fun c len r hlen hr => ?_,
    fun r h => ?_, fun cap wr b _ hc => ⟨pushEvents_of_fits hc, pushEvents_of_overflow hc⟩⟩
  · exact scan_events_of_move (scanTurn_headerMiss h r)
  · exact scan_events_of_move (scanTurn_badLength c r h)
  · exact scan_events_wireFrame_append c k r hp
  · exact scan_events_of_stop (scanTurn_short h)
  · have hheld : IncompleteFrame (sof0 :: sof1 :: c :: len :: r) :=
      ⟨_, rfl, .inr ⟨c, len, r, rfl, hlen, by simp only [List.length_cons, overhead]; omega⟩⟩
    exact scan_events_of_stop hheld.scanTurn
  · have hheld : IncompleteFrame (sof0 :: sof1 :: r) := ⟨r, rfl, .inl (Nat.add_lt_add_right h 2)⟩
    exact scan_events_of_stop hheld.scanTurn

end Sys2Proof.Proofs
end

section
/-! PROOFS. The statements of the family `70_reset_and_hazards`: UPDATEs that no INIT precedes (R141), RESET (R130) and
garbage in front of a frame (R136). First the law of each; then the statements. -/

namespace Sys2Proof.Machine

/-! UPDATEs without an INIT (R141). -/

/-- A run of at least one UPDATE, from any state: the bytes are folded into what the register held. -/
theorem execAll_crcUpdates_of_ne_nil {msg : List Byte} (h : msg ≠ []) (s : State) :
    execAll (msg.map .crcUpdate) s = .next ((s.setCrc (msg.foldl crcStep s.crc)).respond .none) := by
  obtain ⟨b, msg, rfl⟩ := List.exists_cons_of_ne_nil h
  rw [List.map_cons, execAll_cons_of_next (exec_crcUpdate b s)]
  exact execAll_crcUpdates msg (s.setCrc (crcStep s.crc b))

/-! RESET (R130). -/

/-- RESET leaves a buffer of no bytes, whatever BUF held before. -/
theorem exec_reset (s : State) : exec .reset s = .next (((s.setCrc crcInitial).respond .none).withBytes []) := by
  have hreset : exec .reset s = .next ((s.discard.setCrc crcInitial).respond .none) := rfl
  rw [hreset, discard_eq]
  rfl

/-! Garbage in front of a frame (R136). -/

/-- Every byte of garbage without the pair `AA 55` is a header miss when the byte behind the garbage is `AA`: a last
`AA` of the garbage is then followed by `AA`, not by `55`. -/
theorem exec_drain_skips_garbage {s : State} {g r : List Byte} (hpair : ¬ [sof0, sof1] <:+: g)
    (hfits : g.length + r.length + 1 ≤ s.cfg.cap) :
    exec .drain (s.withBytes (g ++ sof0 :: r)) = exec .drain (s.withBytes (sof0 :: r)) := by
  induction g with
  | nil => rfl
  | cons x g ih =>
    rw [List.length_cons] at hfits
    rw [← ih (fun h => hpair (List.infix_cons h)) (by omega)]
    cases g with
    | nil =>
      have hmiss : ¬ (x = sof0 ∧ sof0 = sof1) := fun h => absurd h.2 (by decide)
      exact exec_drain_headerMiss (by omega) hmiss
    | cons y g =>
      have hmiss : ¬ (x = sof0 ∧ y = sof1) := by
        rintro ⟨rfl, rfl⟩
        exact hpair ⟨[], g, rfl⟩
      have hroom : (g ++ sof0 :: r).length + 2 ≤ s.cfg.cap := by
        rw [List.length_cons] at hfits
        rw [List.length_append, List.length_cons]
        omega
      exact exec_drain_headerMiss hroom hmiss

/-- An encoded frame alone in BUF: the DRAIN emits it and nothing stays. -/
theorem exec_drain_encodeFrame {s : State} (c : Byte) {p : List Byte} (hp : p.length ≤ maxPayload)
    (hfits : (encodeFrame c p).length ≤ s.cfg.cap) :
    exec .drain (s.withBytes (encodeFrame c p)) = .next ((s.withBytes []).respond (.frames [encodedFrame c p])) := by
  have hpass : framePasses c p (crc8 (frameBody c p)) = true := framePasses_crc8 c p hp
  obtain ⟨hframes, hrest⟩ := scan_wireFrame c (crc8 (frameBody c p)) hp
  rw [if_pos hpass] at hframes
  rw [exec_drain_withBytes s _ hfits, encodeFrame, hframes, hrest]
  rfl

end Sys2Proof.Machine

namespace Sys2Proof.Proofs

open Sys2Proof.Machine

/-- Settles O16: the register held the fold of the first bytes, and the UPDATEs go on with it. -/
theorem updatesWithoutInitContinueTheMessage : Obligations.UpdatesWithoutInitContinueTheMessage := by
  intro a b s hcrc hb
  rw [execAll_crcUpdates_of_ne_nil hb, hcrc, ← crc8_append]
  rfl

/-- Settles O17: RESET leaves a buffer of no bytes; the scan of none stops at once, and a burst is appended to none. -/
theorem resetClearsCursorAndCrc : Obligations.ResetClearsCursorAndCrc := by
  intro s b
  refine ⟨⟨.ofBytes [], exec_reset s⟩, ?_, fun hfits => ?_⟩
  · have hstop : scanTurn [] = .stop none := scanTurn_short (by decide)
    rw [execAll_cons_of_next (exec_reset s), execAll_cons_of_next (exec_drain_of_stop (Nat.zero_le _) hstop)]
    exact ⟨_, rfl, rfl⟩
  · have hpush := exec_push_of_fits ((s.setCrc crcInitial).respond .none) [] b (by simpa using hfits)
    rw [execAll_cons_of_next (exec_reset s), execAll_cons_of_next hpush]
    rfl

/-- Settles O40: the garbage is skipped byte by byte up to the frame's `AA`, and the frame is then drained alone. -/
theorem garbageBeforeAFrameIsSkipped : Obligations.GarbageBeforeAFrameIsSkipped := by
  intro s g p c hp hcap hpair
  have hlen : (encodeFrame c p).length = 5 + p.length := encodeFrame_length c p
  have hnone : ¬ [sof0, sof1] <:+: g := by
    rintro ⟨a, b, rfl⟩
    exact hpair ⟨a, b, List.append_assoc a _ b⟩
  obtain ⟨r, hr⟩ : ∃ r, encodeFrame c p = sof0 :: r := ⟨_, rfl⟩
  have hskip : exec .drain (s.withBytes (g ++ encodeFrame c p)) = exec .drain (s.withBytes (encodeFrame c p)) := by
    rw [hr] at hlen ⊢
    rw [List.length_cons] at hlen
    exact exec_drain_skips_garbage hnone (by omega)
  rw [hskip, exec_drain_encodeFrame c hp (by omega)]
  rfl

end Sys2Proof.Proofs
end
